-- ==== Sys2Proof/Word.lean ====
section
/-! DEFINITION. The widths of the block (`00_scope.md` R7, R10): bytes, 24-bit command words and
32-bit response values, as bit vectors whose bit 0 is the least significant bit. -/

namespace Sys2Proof

/-- A device register, a register address, a bus address or an operand: 8 bits (R7). -/
abbrev Byte := BitVec 8

/-- A command word: 24 bits (R90). -/
abbrev CommandWord := BitVec 24

/-- A response value: 32 bits (R196). -/
abbrev Value := BitVec 32

end Sys2Proof
end

