-- ==== Sys2Proof/Config.lean ====
section
/-! DEFINITION. What is fixed for the block: the parameters the source states as literals
(`00_scope.md` R7, R8), the OPEN parameters (R9) as a record of plain data, and the free values the
spec's oracle leaves open (`20_memory.md` R60, R66). -/

namespace Sys2Proof.Config

/-! ### The fixed parameters (R8): no model takes them as arguments -/

/-- `ADDR_PRIMARY`, the lower legal device address. -/
def addrPrimary : Byte := 0x76
/-- `ADDR_SECONDARY`, the upper legal device address. -/
def addrSecondary : Byte := 0x77
/-- `CHIP_ID_VALUE`, the chip identifier INIT expects. -/
def chipIdValue : Byte := 0x61
/-- `REG_CTRL_MEAS`, the measurement control register (R42). -/
def regCtrlMeas : Byte := 0x74
/-- `REG_CTRL_HUM`, the humidity control register (R43). -/
def regCtrlHum : Byte := 0x72
/-- `REG_STATUS`, the status register (R44). -/
def regStatus : Byte := 0x1D
/-- `REG_RESET`, the reset register (R47). -/
def regReset : Byte := 0xE0
/-- `RESET_CMD`, the byte that triggers a soft reset. -/
def resetCmd : Byte := 0xB6
/-- `OSRS_MAX`, the largest oversampling level the block writes (R163). -/
def osrsMax : Nat := 5

/-! ### The OPEN parameters (R9) -/

/-- One entry of `CAL_MAP` (`10_state.md` R37, `40_lifecycle.md` R121): how one constant is loaded. -/
inductive CalEntry where
  /-- `R16(lsb_addr)`: one `read16`, least significant byte first. -/
  | r16 (lsbAddr : Byte)
  /-- `R8(addr)`: one `read8`. -/
  | r8 (addr : Byte)
  /-- `NIB_LO(msb_addr, shared)`: an MSB byte above the low nibble of the shared byte. -/
  | nibLo (msbAddr shared : Byte)
  /-- `NIB_HI(msb_addr, shared)`: an MSB byte above the high nibble of the shared byte. -/
  | nibHi (msbAddr shared : Byte)
deriving DecidableEq, Repr

/-- `CAL_MAP`: one entry for each of the 20 constants, in READ_CAL's index order (`10_state.md` R34). -/
abbrev CalMap := Vector CalEntry 20

/-- The OPEN parameters of `00_scope.md` R7: arguments of the model. Any values are admitted. -/
structure Params where
  /-- `REG_CHIP_ID`. -/
  regChipId : Byte
  /-- `REG_T_MSB`. -/
  regTMsb : Byte
  /-- `REG_T_LSB`. -/
  regTLsb : Byte
  /-- `REG_T_XLSB`. -/
  regTXlsb : Byte
  /-- `REG_P_MSB`. -/
  regPMsb : Byte
  /-- `REG_P_LSB`. -/
  regPLsb : Byte
  /-- `REG_P_XLSB`. -/
  regPXlsb : Byte
  /-- `REG_H_MSB`. -/
  regHMsb : Byte
  /-- `REG_H_LSB`. -/
  regHLsb : Byte
  /-- `CAL_MAP`. -/
  calMap : CalMap
  /-- `CAL_SIGNED`: whether the host reads a constant as two's complement (R38). -/
  calSigned : Vector Bool 20
deriving DecidableEq, Repr

/-- The default `CAL_MAP` of `10_state.md` R37. PRESUMED (log entry 7): the spec marks it general
knowledge, for test vectors only. -/
def defaultCalMap : CalMap := #v[
  .r16 0xE9, .r16 0x8A, .r8 0x8C,                                  -- T1 T2 T3
  .r16 0x8E, .r16 0x90, .r8 0x92, .r16 0x94, .r16 0x96,            -- P1 P2 P3 P4 P5
  .r8 0x99, .r8 0x98, .r16 0x9C, .r16 0x9E, .r8 0xA0,              -- P6 P7 P8 P9 P10
  .nibLo 0xE3 0xE2, .nibHi 0xE1 0xE2,                              -- H1 H2
  .r8 0xE4, .r8 0xE5, .r8 0xE6, .r8 0xE7, .r8 0xE8]                -- H3 H4 H5 H6 H7

/-- The default `CAL_SIGNED` of `10_state.md` R38. PRESUMED (log entry 7). -/
def defaultCalSigned : Vector Bool 20 := #v[
  false, true, true,                                               -- T1 T2 T3
  false, true, true, true, true, true, true, true, true, false,    -- P1 to P10
  false, false, true, true, true, false, true]                     -- H1 to H7

/-- The defaults of `00_scope.md` R7. PRESUMED (log entry 7): no statement rests on them unless it
says so. -/
def defaultParams : Params where
  regChipId := 0xD0
  regTMsb := 0x22
  regTLsb := 0x23
  regTXlsb := 0x24
  regPMsb := 0x1F
  regPLsb := 0x20
  regPXlsb := 0x21
  regHMsb := 0x25
  regHLsb := 0x26
  calMap := defaultCalMap
  calSigned := defaultCalSigned

/-! ### The free values: the draws of the oracle past the answers that State lists -/

/-- Whether the n-th answer of the transport is a fault (R66): nothing constrains it (log entry 4). -/
opaque freeFault : Nat → Bool

/-- The n-th pair of bytes the device returns (R60): nothing constrains them (log entry 4). -/
opaque freeBytes : Nat → Byte × Byte

end Sys2Proof.Config
end

