-- ==== Sys2Proof/Syntax.lean ====
section
/-! DEFINITION. The 16 commands of `30_encoding.md` R92, one constructor for each row of
`spec/opcode_table.json`. Every operand is one unsigned byte (R93). -/

namespace Sys2Proof

/-- A decoded command with its operands. -/
inductive Instr where
  /-- INIT: construction, identity check and calibration loading (R114). -/
  | init
  /-- DISPOSE: release of the transport (R133). -/
  | dispose
  /-- READ8 r: one-byte register read (R141). -/
  | read8 (r : Byte)
  /-- READ16 r: two-byte register read (R144). -/
  | read16 (r : Byte)
  /-- WRITE8 r, v: register write (R148). -/
  | write8 (r v : Byte)
  /-- SET_MODE m: power mode (R158). -/
  | setMode (m : Byte)
  /-- SET_OSRS_T lvl: temperature oversampling (R161). -/
  | setOsrsT (lvl : Byte)
  /-- SET_OSRS_P lvl: pressure oversampling (R164). -/
  | setOsrsP (lvl : Byte)
  /-- SET_OSRS_H lvl: humidity oversampling (R166). -/
  | setOsrsH (lvl : Byte)
  /-- SOFT_RESET: soft reset of the device (R168). -/
  | softReset
  /-- GET_MODE: power-mode read-back (R178). -/
  | getMode
  /-- HAS_NEW_DATA: data-ready check (R174). -/
  | hasNewData
  /-- READ_ADC_T: raw temperature value (R182). -/
  | readAdcT
  /-- READ_ADC_P: raw pressure value (R184). -/
  | readAdcP
  /-- READ_ADC_H: raw humidity value (R185). -/
  | readAdcH
  /-- READ_CAL i: one calibration constant (R192). -/
  | readCal (i : Byte)
deriving DecidableEq, Repr

end Sys2Proof
end

