-- ==== Sys2Proof/WellFormed.lean ====
section
/-! DEFINITION. Which commands carry an operand of their legal set (`30_encoding.md` R93,
`60_exceptions.md` R206). The types already keep every operand to one byte; the two commands with a
smaller legal set are SET_MODE and READ_CAL. The encoding admits the other operands too: they decode,
and the block answers them with ILLEGAL_OPERAND (log entry 16). -/

namespace Sys2Proof

/-- The operand is one the command accepts: a mode of 0 or 1, a calibration index of 0 to 19, and
every value elsewhere (R93). -/
def Instr.wellFormed : Instr → Bool
  | .init => true
  | .dispose => true
  | .read8 _ => true
  | .read16 _ => true
  | .write8 _ _ => true
  | .setMode m => m.toNat ≤ 1
  | .setOsrsT _ => true
  | .setOsrsP _ => true
  | .setOsrsH _ => true
  | .softReset => true
  | .getMode => true
  | .hasNewData => true
  | .readAdcT => true
  | .readAdcP => true
  | .readAdcH => true
  | .readCal i => i.toNat ≤ 19

end Sys2Proof
end

