-- ==== Sys2Proof/Decode.lean ====
section
/-! DEFINITION. The command word (`30_encoding.md` R90 to R97): the opcode map of R92 as a list of
rows, the total decoder of R94, and the encoder written from the same map. -/

namespace Sys2Proof

/-- The operand forms of R91. -/
inductive Form where
  /-- `N`: no operand, both operand fields must be 0. -/
  | n
  /-- `A`: one operand, field `B` must be 0. -/
  | a
  /-- `AB`: two operands. -/
  | ab
deriving DecidableEq, Repr

/-- The 16 mnemonics of R92. -/
inductive Mnemonic where
  | INIT | DISPOSE | READ8 | READ16 | WRITE8 | SET_MODE | SET_OSRS_T | SET_OSRS_P | SET_OSRS_H
  | SOFT_RESET | GET_MODE | HAS_NEW_DATA | READ_ADC_T | READ_ADC_P | READ_ADC_H | READ_CAL
deriving DecidableEq, Repr

/-- One row of the opcode map of R92. -/
structure OpcodeRow where
  mnemonic : Mnemonic
  op : Byte
  form : Form
  matchBits : CommandWord
  mask : CommandWord
deriving DecidableEq, Repr

/-- The opcode map of R92, row for row. -/
def opcodeMap : List OpcodeRow := [
  ⟨.INIT,         0x01, .n,  0x010000, 0xFFFFFF⟩,
  ⟨.DISPOSE,      0x02, .n,  0x020000, 0xFFFFFF⟩,
  ⟨.READ8,        0x10, .a,  0x100000, 0xFF00FF⟩,
  ⟨.READ16,       0x11, .a,  0x110000, 0xFF00FF⟩,
  ⟨.WRITE8,       0x12, .ab, 0x120000, 0xFF0000⟩,
  ⟨.SET_MODE,     0x20, .a,  0x200000, 0xFF00FF⟩,
  ⟨.SET_OSRS_T,   0x21, .a,  0x210000, 0xFF00FF⟩,
  ⟨.SET_OSRS_P,   0x22, .a,  0x220000, 0xFF00FF⟩,
  ⟨.SET_OSRS_H,   0x23, .a,  0x230000, 0xFF00FF⟩,
  ⟨.SOFT_RESET,   0x24, .n,  0x240000, 0xFFFFFF⟩,
  ⟨.GET_MODE,     0x25, .n,  0x250000, 0xFFFFFF⟩,
  ⟨.HAS_NEW_DATA, 0x26, .n,  0x260000, 0xFFFFFF⟩,
  ⟨.READ_ADC_T,   0x30, .n,  0x300000, 0xFFFFFF⟩,
  ⟨.READ_ADC_P,   0x31, .n,  0x310000, 0xFFFFFF⟩,
  ⟨.READ_ADC_H,   0x32, .n,  0x320000, 0xFFFFFF⟩,
  ⟨.READ_CAL,     0x40, .a,  0x400000, 0xFF00FF⟩]

/-- Field `OP`, bits 23:16 (R90). -/
def opField (w : CommandWord) : Byte := w.extractLsb' 16 8

/-- Field `A`, bits 15:8 (R90). -/
def aField (w : CommandWord) : Byte := w.extractLsb' 8 8

/-- Field `B`, bits 7:0 (R90). -/
def bField (w : CommandWord) : Byte := w.extractLsb' 0 8

/-- A word selects the row whose match its masked bits equal (R92). -/
def OpcodeRow.selects (row : OpcodeRow) (w : CommandWord) : Bool := w &&& row.mask == row.matchBits

/-- The command of a mnemonic with the operand fields `a` and `b`; a form that does not use a field
ignores it here, the row's mask having required it to be 0 (R94). -/
def Mnemonic.command (a b : Byte) : Mnemonic → Instr
  | .INIT => .init
  | .DISPOSE => .dispose
  | .READ8 => .read8 a
  | .READ16 => .read16 a
  | .WRITE8 => .write8 a b
  | .SET_MODE => .setMode a
  | .SET_OSRS_T => .setOsrsT a
  | .SET_OSRS_P => .setOsrsP a
  | .SET_OSRS_H => .setOsrsH a
  | .SOFT_RESET => .softReset
  | .GET_MODE => .getMode
  | .HAS_NEW_DATA => .hasNewData
  | .READ_ADC_T => .readAdcT
  | .READ_ADC_P => .readAdcP
  | .READ_ADC_H => .readAdcH
  | .READ_CAL => .readCal a

/-- What a word decodes to (R94): one command, or the refusal `ILLEGAL_COMMAND` by name. -/
inductive Decoded where
  | command (i : Instr)
  | illegalCommand
deriving DecidableEq, Repr

/-- The decoder of R94, total on every 24-bit word. -/
def decode (w : CommandWord) : Decoded :=
  match opcodeMap.find? (·.selects w) with
  | some row => .command (row.mnemonic.command (aField w) (bField w))
  | none => .illegalCommand

/-- The mnemonic of a command. -/
def Instr.mnemonic : Instr → Mnemonic
  | .init => .INIT
  | .dispose => .DISPOSE
  | .read8 _ => .READ8
  | .read16 _ => .READ16
  | .write8 _ _ => .WRITE8
  | .setMode _ => .SET_MODE
  | .setOsrsT _ => .SET_OSRS_T
  | .setOsrsP _ => .SET_OSRS_P
  | .setOsrsH _ => .SET_OSRS_H
  | .softReset => .SOFT_RESET
  | .getMode => .GET_MODE
  | .hasNewData => .HAS_NEW_DATA
  | .readAdcT => .READ_ADC_T
  | .readAdcP => .READ_ADC_P
  | .readAdcH => .READ_ADC_H
  | .readCal _ => .READ_CAL

/-- The `OP` value of a mnemonic (R92). -/
def Mnemonic.op : Mnemonic → Byte
  | .INIT => 0x01
  | .DISPOSE => 0x02
  | .READ8 => 0x10
  | .READ16 => 0x11
  | .WRITE8 => 0x12
  | .SET_MODE => 0x20
  | .SET_OSRS_T => 0x21
  | .SET_OSRS_P => 0x22
  | .SET_OSRS_H => 0x23
  | .SOFT_RESET => 0x24
  | .GET_MODE => 0x25
  | .HAS_NEW_DATA => 0x26
  | .READ_ADC_T => 0x30
  | .READ_ADC_P => 0x31
  | .READ_ADC_H => 0x32
  | .READ_CAL => 0x40

/-- The operand that stands in field `A`; 0 where the command has none (R104). -/
def Instr.operandA : Instr → Byte
  | .init => 0
  | .dispose => 0
  | .read8 r => r
  | .read16 r => r
  | .write8 r _ => r
  | .setMode m => m
  | .setOsrsT lvl => lvl
  | .setOsrsP lvl => lvl
  | .setOsrsH lvl => lvl
  | .softReset => 0
  | .getMode => 0
  | .hasNewData => 0
  | .readAdcT => 0
  | .readAdcP => 0
  | .readAdcH => 0
  | .readCal i => i

/-- The operand that stands in field `B`: WRITE8's data byte, 0 elsewhere (R104). -/
def Instr.operandB : Instr → Byte
  | .init => 0
  | .dispose => 0
  | .read8 _ => 0
  | .read16 _ => 0
  | .write8 _ v => v
  | .setMode _ => 0
  | .setOsrsT _ => 0
  | .setOsrsP _ => 0
  | .setOsrsH _ => 0
  | .softReset => 0
  | .getMode => 0
  | .hasNewData => 0
  | .readAdcT => 0
  | .readAdcP => 0
  | .readAdcH => 0
  | .readCal _ => 0

/-- The fields of R90 laid side by side: `OP` in bits 23:16, `A` in 15:8, `B` in 7:0. -/
def assembleFields (op a b : Byte) : CommandWord := op ++ a ++ b

/-- The command word of a command: `(OP << 16) | (A << 8) | B` (R104). -/
def encode (i : Instr) : CommandWord := assembleFields i.mnemonic.op i.operandA i.operandB

/-- The host's view of the decoder: the command read from the low `nbits` bits of `w`, numbered as
the opcode table numbers them; a word of more than 24 bits is none of this block's (R97; log entry 1). -/
def decodeTableWord (nbits w : Nat) : Option Instr :=
  if nbits ≤ 24 then
    match decode (BitVec.ofNat 24 (w % 2 ^ nbits)) with
    | .command i => some i
    | .illegalCommand => none
  else none

end Sys2Proof
end

