-- ==== Sys2Proof/Machine/State.lean ====
section
/-! DEFINITION. The state of the machine as plain data: the spec's own record BlockState
(`10_state.md`), the OPEN parameters, the inputs from the host and the transport, and the outputs a
command leaves (trace and response, `20_memory.md` R70). -/

namespace Sys2Proof.Machine

/-- The lifecycle of `10_state.md` R27. -/
inductive Lifecycle where
  /-- No construction has been tried. -/
  | uninit
  /-- Construction succeeded. -/
  | valid
  /-- Construction was tried and failed. -/
  | failed
  /-- DISPOSE has run. -/
  | disposed
deriving DecidableEq, Repr

/-- A transport handle as the block can tell it: what its `BusAddress` and its `BusRelease` do, each
called at most once on a handle presented (`20_memory.md` R66 to R68; log entry 10). -/
structure TransportHandle where
  /-- The configured device address, which `BusAddress` returns (R67). -/
  address : Byte
  /-- `BusAddress` returns; otherwise the block waits for it forever (`70_reset_and_hazards.md` R240). -/
  addressReturns : Bool
  /-- `BusRelease` returns; otherwise the block waits for it forever (R240). -/
  releaseReturns : Bool
deriving DecidableEq, Repr

/-- A calibration constant: the raw bit pattern in its stated width (`10_state.md` R34). -/
inductive CalValue where
  | bits8 (v : BitVec 8)
  | bits12 (v : BitVec 12)
  | bits16 (v : BitVec 16)
deriving DecidableEq, Repr

/-- The calibration store: the 20 constants by READ_CAL's index (`10_state.md` R34). -/
abbrev CalStore := Vector CalValue 20

/-- The block's own state, field for field the record of `10_state.md`. -/
structure BlockState where
  /-- `st.lifecycle` (R27). -/
  lifecycle : Lifecycle
  /-- `st.tp` (R29). -/
  tp : Option TransportHandle
  /-- `st.dev_addr` (R31). -/
  devAddr : Option Byte
  /-- `st.cal` (R32). -/
  cal : Option CalStore
deriving DecidableEq, Repr

/-- The reset values of block state, in one place (`10_state.md` R52, `70_reset_and_hazards.md` R223). -/
def BlockState.reset : BlockState where
  lifecycle := .uninit
  tp := none
  devAddr := none
  cal := none

/-- One input of the host (`60_exceptions.md` R217, `70_reset_and_hazards.md` R223). -/
inductive HostInput where
  /-- The host issues a command word and presents `hostTp` beside it (`10_state.md` R30). -/
  | command (w : CommandWord) (hostTp : Option TransportHandle)
  /-- The block is reset (R223). -/
  | blockReset
deriving DecidableEq, Repr

/-- The transport's answer to one call of a write or read primitive: a draw of the oracle
(`20_memory.md` R60, R66). A primitive uses the bytes it asks for and ignores the others (log entry 6). -/
inductive Answer where
  /-- The primitive completes; a one-byte read returns `b0`, a two-byte read `b0` and then `b1`. -/
  | returns (b0 b1 : Byte)
  /-- The primitive faults (R66). -/
  | faults
  /-- The primitive never returns (`70_reset_and_hazards.md` R240). -/
  | never
deriving DecidableEq, Repr

/-- The transport events of `20_memory.md` R65, each fault form named for its primitive. -/
inductive Event where
  /-- `Addr(a)`. -/
  | addr (a : Byte)
  /-- `WrB(v)`. -/
  | wrB (v : Byte)
  /-- `WrN([b0, b1])`. -/
  | wrN (bytes : List Byte)
  /-- `RdB(b)`. -/
  | rdB (b : Byte)
  /-- `RdN([b0..b(n-1)])`. -/
  | rdN (bytes : List Byte)
  /-- `Rel`. -/
  | rel
  /-- `WrB(v)!`. -/
  | wrBFault (v : Byte)
  /-- `WrN([b0, b1])!`. -/
  | wrNFault (bytes : List Byte)
  /-- `RdB!`. -/
  | rdBFault
  /-- `RdN(n)!`. -/
  | rdNFault (n : Nat)
deriving DecidableEq, Repr

/-- The status codes of `60_exceptions.md` R197; the reserved codes 9 to 15 are none of them. -/
inductive Status where
  | ok | argument | range | identity | transport | disposed | illegalCommand | illegalOperand | state
deriving DecidableEq, Repr

/-- The 4-bit code of a status (R197). -/
def Status.code : Status → BitVec 4
  | .ok => 0
  | .argument => 1
  | .range => 2
  | .identity => 3
  | .transport => 4
  | .disposed => 5
  | .illegalCommand => 6
  | .illegalOperand => 7
  | .state => 8

/-- A response: a status and a 32-bit value (R196). -/
structure Response where
  status : Status
  value : Value
deriving DecidableEq, Repr

/-- The whole machine. `block` is the spec's state; the other fields are the model's: the arguments
the spec gives the block, its inputs and its outputs. -/
structure State where
  /-- The block's own state (`10_state.md`). -/
  block : BlockState
  /-- The OPEN parameters, which no step changes (`00_scope.md` R9; log entry 7). -/
  params : Config.Params
  /-- `host_tp`, the handle the host presents with the word being run (`10_state.md` R30; log entry 3). -/
  hostTp : Option TransportHandle
  /-- The host's inputs still to come, next first (log entry 2). -/
  inputs : List HostInput
  /-- The transport's answers still to come, next first; past its end they are free values (log entry 4). -/
  answers : List Answer
  /-- How many answers have been taken: the counter the free values are applied to (log entry 4). -/
  drawn : Nat
  /-- The events recorded so far, oldest first (`20_memory.md` R70, R72; log entry 9). -/
  trace : List Event
  /-- The responses delivered so far, oldest first (`60_exceptions.md` R196; log entry 9). -/
  responses : List Response
deriving DecidableEq, Repr

/-- The machine right after reset with the OPEN parameters `p`: the block at the reset values of R52,
nothing presented, nothing issued, nothing recorded (log entries 2, 3, 4, 9). -/
def State.resetWith (p : Config.Params) : State where
  block := .reset
  params := p
  hostTp := none
  inputs := []
  answers := []
  drawn := 0
  trace := []
  responses := []

/-- The machine right after reset. PRESUMED (log entry 7): the OPEN parameters stand at the defaults
of `00_scope.md` R7. -/
def State.reset : State := .resetWith Config.defaultParams

/-- Why the machine stops with no step. None of them is an error response of the block: those are
next states. -/
inductive Fault where
  /-- A primitive never returned, so the block waits forever (`70_reset_and_hazards.md` R240). Raised
  by every command that calls a primitive: a write or read primitive on the answer `never`,
  `BusAddress` and `BusRelease` on a handle whose own call does not return (log entry 18). Safe: the
  spec gives the block no step there. -/
  | primitiveNeverReturns
  /-- A transport primitive was called with no handle held. Raised by the transport primitives in
  states no run reaches (log entry 11). Safe. -/
  | noTransportHeld
  /-- READ_CAL was admitted with no calibration store. Raised by READ_CAL in states no run reaches
  (log entry 11). Safe. -/
  | noCalibrationStore
deriving DecidableEq, Repr

/-- Interactions the model gives no meaning. -/
inductive Refusal where
  /-- A command that has no meaning yet. Raised by no arm now; safe. -/
  | notModelled (mnemonic : String)
  /-- A block reset while a transport handle is held (`70_reset_and_hazards.md` R224). Raised by the
  block reset input. Safe: the spec gives it no meaning. -/
  | resetWhileTransportHeld
deriving DecidableEq, Repr

/-- The outcome of a step of this machine. -/
abbrev Result := Host.Outcome State Fault Refusal

end Sys2Proof.Machine
end

