-- ==== Sys2Proof/Machine/Operands.lean ====
section
/-! DEFINITION. The arithmetic of operands and results: legal operand sets, the field packer
(`41_register_primitives.md` R150 to R155), and the assembly of multi-byte values
(`20_memory.md` R79, `40_lifecycle.md` R123, `43_measurement.md` R182 to R186). -/

namespace Sys2Proof.Machine

/-! ### Legal operands and addresses -/

/-- INIT's inclusive range check on the device address (`40_lifecycle.md` R116). -/
def legalAddress (a : Byte) : Bool := Config.addrPrimary ≤ a && a ≤ Config.addrSecondary

/-- SET_MODE accepts Sleep (0) and Forced (1) only (`42_configuration.md` R158). -/
def legalMode (m : Byte) : Bool := m ≤ 1

/-- The level clamp `min(lvl, OSRS_MAX)` (`42_configuration.md` R163). -/
def clampLevel (lvl : Byte) : Byte := BitVec.ofNat 8 (min lvl.toNat Config.osrsMax)

/-! ### Fields of a register -/

/-- A field descriptor `(reg, mask, shift)` (`41_register_primitives.md` R150). -/
structure FieldDesc where
  reg : Byte
  mask : Byte
  shift : Nat
deriving DecidableEq, Repr

/-- `FD_MODE`, bits 1:0 of 0x74 (R153). -/
def fdMode : FieldDesc := ⟨Config.regCtrlMeas, 0x03, 0⟩
/-- `FD_OSRS_P`, bits 4:2 of 0x74 (R153). -/
def fdOsrsP : FieldDesc := ⟨Config.regCtrlMeas, 0x1C, 2⟩
/-- `FD_OSRS_T`, bits 7:5 of 0x74 (R153). -/
def fdOsrsT : FieldDesc := ⟨Config.regCtrlMeas, 0xE0, 5⟩
/-- `FD_OSRS_H`, bits 2:0 of 0x72 (R153). -/
def fdOsrsH : FieldDesc := ⟨Config.regCtrlHum, 0x07, 0⟩
/-- `FD_NEW_DATA`, bit 7 of 0x1D (R153). -/
def fdNewData : FieldDesc := ⟨Config.regStatus, 0x80, 7⟩

/-- The byte RMW writes: the prior byte with the field replaced (R151). The shift is on 8 bits, where
R11 shifts unbounded naturals: the mask keeps only bits below 8 (log entry 17). -/
def FieldDesc.pack (fd : FieldDesc) (prior v : Byte) : Byte :=
  (prior &&& (0xFF ^^^ fd.mask)) ||| ((v <<< fd.shift) &&& fd.mask)

/-- Field extraction `get(fd, byte)` (R155). -/
def FieldDesc.get (fd : FieldDesc) (b : Byte) : Byte := (b &&& fd.mask) >>> fd.shift

/-! ### Values of more than one byte -/

/-- The result of `read16`: the first byte received is the least significant (`20_memory.md` R79). -/
def littleEndian (b0 b1 : Byte) : BitVec 16 := b0.setWidth 16 ||| (b1.setWidth 16 <<< 8)

/-- The raw temperature or pressure value, `(MSB << 12) + (LSB << 4) + (XLSB >> 4)`
(`43_measurement.md` R182, R184). -/
def adcThreeBytes (msb lsb xlsb : Byte) : Value :=
  (msb.setWidth 32 <<< 12) + (lsb.setWidth 32 <<< 4) + (xlsb.setWidth 32 >>> 4)

/-- The raw humidity value, `(MSB << 8) + LSB` (`43_measurement.md` R185). -/
def adcTwoBytes (msb lsb : Byte) : Value := (msb.setWidth 32 <<< 8) + lsb.setWidth 32

/-- A nibble pair with the low nibble of the shared byte (`40_lifecycle.md` R123, `NIB_LO`). -/
def nibbleLow (msb shared : Byte) : BitVec 12 :=
  (msb.setWidth 12 <<< 4) ||| (shared.setWidth 12 &&& 0x00F)

/-- A nibble pair with the high nibble of the shared byte (`40_lifecycle.md` R123, `NIB_HI`). -/
def nibbleHigh (msb shared : Byte) : BitVec 12 :=
  (msb.setWidth 12 <<< 4) ||| (shared.setWidth 12 >>> 4)

/-! ### Calibration constants -/

/-- The width of a stored constant (`10_state.md` R34). -/
def CalValue.width : CalValue → Nat
  | .bits8 _ => 8
  | .bits12 _ => 12
  | .bits16 _ => 16

/-- The raw bits zero-extended, as READ_CAL returns them (`43_measurement.md` R192). -/
def CalValue.raw : CalValue → Value
  | .bits8 v => v.setWidth 32
  | .bits12 v => v.setWidth 32
  | .bits16 v => v.setWidth 32

/-- The raw bits sign-extended from the constant's width. -/
def CalValue.signExtended : CalValue → Value
  | .bits8 v => v.signExtend 32
  | .bits12 v => v.signExtend 32
  | .bits16 v => v.signExtend 32

/-- `signed_view(c)`, the host's reading of constant `i` of a store (`10_state.md` R39). No command
returns it. -/
def signedView (p : Config.Params) (store : CalStore) (i : Fin 20) : Value :=
  if p.calSigned[i] then store[i].signExtended else store[i].raw

end Sys2Proof.Machine
end

