-- ==== Sys2Proof/Machine/Flags.lean ====
section
/-! DEFINITION. The block has no flags, condition codes or predicates (`10_state.md` R40). The two
fields it unpacks from a device register and hands to the host stand here. -/

namespace Sys2Proof.Machine

/-- The new-data flag of a status byte: `(s & 0x80) >> 7` (`42_configuration.md` R174). -/
def newDataFlag (status : Byte) : Byte := fdNewData.get status

/-- The power mode of a control byte, `p & 0x03`: the raw 2-bit value (`42_configuration.md` R178, R179). -/
def powerMode (ctrl : Byte) : Byte := fdMode.get ctrl

end Sys2Proof.Machine
end

