-- ==== Sys2Proof/Machine/Ops.lean ====
section
/-! DEFINITION. The shared operations: how a command body runs and ends (`00_scope.md` R14,
`60_exceptions.md` R196 to R205), the transport primitives (`20_memory.md` R64 to R69), the register
primitives and RMW (`41_register_primitives.md`), the calibration loader (`40_lifecycle.md` R121),
and the host's side of a step. -/

namespace Sys2Proof.Machine

/-- `s` with the block state `b`: `st.f <- v` is `s.withBlock { s.block with f := v }` (R14). -/
def State.withBlock (s : State) (b : BlockState) : State := { s with block := b }

/-! ### Running a command body -/

/-- How a part of a command body ends. -/
inductive Ran (α : Type) where
  /-- It returned a value. -/
  | done (a : α) (s : State)
  /-- It raised `E(info)`, which ends the command (R14, R199). -/
  | raised (e : Status) (info : Value) (s : State)
  /-- The machine stops. -/
  | stopped (f : Fault)
deriving Repr

/-- Statements run in the order written; an error or a stop ends the sequence (R14, R199). -/
def Ran.andThen {α β : Type} (x : Ran α) (k : α → State → Ran β) : Ran β :=
  match x with
  | .done a s => k a s
  | .raised e info s => .raised e info s
  | .stopped f => .stopped f

/-- A result computed from the value returned, with no further effect. -/
def Ran.map {α β : Type} (x : Ran α) (f : α → β) : Ran β := x.andThen fun a s => .done (f a) s

/-- Every command ends with exactly one response (R196). -/
def respond (st : Status) (v : Value) (s : State) : State :=
  { s with responses := s.responses ++ [⟨st, v⟩] }

/-- Taking an error: the response `(E, info)` is delivered and nothing else happens. There is no trap
entry: no state is saved, no vector is taken, no mode changes (R199, R213). -/
def raiseError (e : Status) (info : Value) (s : State) : Result := .next (respond e info s)

/-- The end of a command: `(OK, v)` on a return, the error response on a raise (R196, R199). After it
the block waits for the next command; there is no return from an error (R214). -/
def Ran.deliver (x : Ran Value) : Result :=
  match x with
  | .done v s => .next (respond .ok v s)
  | .raised e info s => raiseError e info s
  | .stopped f => .fault f

/-- The three columns of the admission table (R203). -/
inductive CommandKind where
  | init | dispose | other
deriving DecidableEq, Repr

/-- The admission table of R203 with the info of R198: `none` where the command is admitted, else the
error it is refused with. -/
def admission : Lifecycle → CommandKind → Option (Status × Value)
  | .uninit,   .init    => none
  | .uninit,   .dispose => none
  | .uninit,   .other   => some (.state, 0)
  | .valid,    .init    => some (.state, 1)
  | .valid,    .dispose => none
  | .valid,    .other   => none
  | .failed,   .init    => some (.state, 2)
  | .failed,   .dispose => none
  | .failed,   .other   => some (.state, 2)
  | .disposed, .init    => some (.disposed, 0)
  | .disposed, .dispose => none
  | .disposed, .other   => some (.disposed, 0)

/-- The lifecycle check comes first; a refused command issues no primitive and changes no state
(R203, R204). -/
def whenAdmitted (k : CommandKind) (s : State) (body : State → Ran Value) : Result :=
  match admission s.block.lifecycle k with
  | some (e, info) => raiseError e info s
  | none => (body s).deliver

/-! ### The transport primitives -/

/-- The write and read calls the block makes on the transport (`20_memory.md` R64, R69, R84). -/
inductive BusCall where
  /-- `BusWriteByte(v)`. -/
  | writeByte (v : Byte)
  /-- `BusWriteBytes(bytes)`. -/
  | writeBytes (bytes : List Byte)
  /-- `BusReadByte()`. -/
  | readByte
  /-- `BusReadBytes(2)`. -/
  | readTwoBytes
deriving DecidableEq, Repr

/-- The event a call records when it returns (R65). -/
def BusCall.okEvent (b0 b1 : Byte) : BusCall → Event
  | .writeByte v => .wrB v
  | .writeBytes bytes => .wrN bytes
  | .readByte => .rdB b0
  | .readTwoBytes => .rdN [b0, b1]

/-- The event a call records when it faults (R65). -/
def BusCall.faultEvent : BusCall → Event
  | .writeByte v => .wrBFault v
  | .writeBytes bytes => .wrNFault bytes
  | .readByte => .rdBFault
  | .readTwoBytes => .rdNFault 2

/-- The free answer number `n`: a fault or two bytes, unconstrained (R60, R66; log entries 4, 5). -/
def freeAnswer (n : Nat) : Answer :=
  if Config.freeFault n then .faults else .returns (Config.freeBytes n).1 (Config.freeBytes n).2

/-- The answer the transport gives the `k`-th write or read primitive from now: the one listed, or a
free one past the end of the list. -/
def State.answer (s : State) (k : Nat) : Answer := (s.answers[k]?).getD (freeAnswer (s.drawn + k))

/-- The state once the transport has answered `n` more primitives. -/
def State.consume (s : State) (n : Nat) : State :=
  { s with answers := s.answers.drop n, drawn := s.drawn + n }

/-- One event is added to the trace (R65). -/
def State.record (s : State) (e : Event) : State := { s with trace := s.trace ++ [e] }

/-- One write or read primitive on the held handle: it completes and records its event, or faults,
records its fault event and raises TRANSPORT, or never returns (R65, R66, `70_reset_and_hazards.md`
R240). Its result is the bytes the transport gave. -/
def transfer (c : BusCall) (s : State) : Ran (Byte × Byte) :=
  match s.block.tp with
  | none => .stopped .noTransportHeld
  | some _ =>
    match s.answer 0 with
    | .returns b0 b1 => .done (b0, b1) ((s.consume 1).record (c.okEvent b0 b1))
    | .faults => .raised .transport 0 ((s.consume 1).record c.faultEvent)
    | .never => .stopped .primitiveNeverReturns

/-- `BusWriteByte(v)` (R64). -/
def busWriteByte (v : Byte) (s : State) : Ran Unit := (transfer (.writeByte v) s).map fun _ => ()

/-- `BusWriteBytes(bytes)` (R64). -/
def busWriteBytes (bytes : List Byte) (s : State) : Ran Unit :=
  (transfer (.writeBytes bytes) s).map fun _ => ()

/-- `BusReadByte()` (R64). -/
def busReadByte (s : State) : Ran Byte := (transfer .readByte s).map fun b => b.1

/-- `BusReadBytes(2)`, the one count the block uses (R64, R69). -/
def busReadTwoBytes (s : State) : Ran (Byte × Byte) := transfer .readTwoBytes s

/-- `BusAddress()`: the configured address of the held handle; it never faults (R66, R67), but like
every primitive it may never return (`70_reset_and_hazards.md` R240). -/
def busAddress (s : State) : Ran Byte :=
  match s.block.tp with
  | none => .stopped .noTransportHeld
  | some h =>
    if h.addressReturns then .done h.address (s.record (.addr h.address))
    else .stopped .primitiveNeverReturns

/-- `BusRelease()` on the held handle; it never faults (R66, R68), but like every primitive it may
never return (`70_reset_and_hazards.md` R240). -/
def busRelease (s : State) : Ran Unit :=
  match s.block.tp with
  | none => .stopped .noTransportHeld
  | some h =>
    if h.releaseReturns then .done () (s.record .rel) else .stopped .primitiveNeverReturns

/-! ### The register primitives -/

/-- `read8(r)`: select, then a one-byte read (`41_register_primitives.md` R141). -/
def read8 (r : Byte) (s : State) : Ran Byte := (busWriteByte r s).andThen fun _ s => busReadByte s

/-- `read16(r)`: select, then one two-byte read, little-endian (R144). -/
def read16 (r : Byte) (s : State) : Ran (BitVec 16) :=
  (busWriteByte r s).andThen fun _ s => (busReadTwoBytes s).map fun b => littleEndian b.1 b.2

/-- `write(r, v)`: one register-write frame (R148). -/
def writeReg (r v : Byte) (s : State) : Ran Unit := busWriteBytes [r, v] s

/-- `RMW(fd, v)`: read-modify-write of one field (R151). -/
def rmw (fd : FieldDesc) (v : Byte) (s : State) : Ran Unit :=
  (read8 fd.reg s).andThen fun prior s => writeReg fd.reg (fd.pack prior v) s

/-! ### The calibration loader -/

/-- One constant is loaded as its entry of `CAL_MAP` says (`40_lifecycle.md` R121). -/
def loadConstant (e : Config.CalEntry) (s : State) : Ran CalValue :=
  match e with
  | .r16 lsbAddr => (read16 lsbAddr s).map fun v => .bits16 v
  | .r8 addr => (read8 addr s).map fun v => .bits8 v
  | .nibLo msbAddr shared =>
    (read8 msbAddr s).andThen fun m s => (read8 shared s).map fun b => .bits12 (nibbleLow m b)
  | .nibHi msbAddr shared =>
    (read8 msbAddr s).andThen fun m s => (read8 shared s).map fun b => .bits12 (nibbleHigh m b)

/-- The first `n` constants, loaded in index order (R121). -/
def loadFirst (m : Config.CalMap) : (n : Nat) → n ≤ 20 → State → Ran (Vector CalValue n)
  | 0, _, s => .done #v[] s
  | n + 1, h, s =>
    (loadFirst m n (by omega) s).andThen fun c s => (loadConstant m[n] s).map fun v => c.push v

/-- `load_calibration()`: the store in full or, on a fault, not at all (R121). -/
def loadCalibration (s : State) : Ran CalStore := loadFirst s.params.calMap 20 (by omega) s

/-! ### The host's side of a step -/

/-- What the block finds at its input. -/
inductive Arrival where
  /-- No input has come: the block waits. -/
  | idle
  /-- A command word has come; `s` is the state with the input taken and its handle presented. -/
  | word (w : CommandWord) (s : State)
  /-- A block reset has come; `s` is the state with the input taken. -/
  | reset (s : State)
deriving DecidableEq, Repr

/-- The block takes its next input (`60_exceptions.md` R219; log entry 2). -/
def takeInput (s : State) : Arrival :=
  match s.inputs with
  | [] => .idle
  | .command w tp :: rest => .word w { s with inputs := rest, hostTp := tp }
  | .blockReset :: rest => .reset { s with inputs := rest }

/-- The host's input queue with one more word in front, the handle presented as it stands. -/
def issueWord (w : CommandWord) (s : State) : State :=
  { s with inputs := .command w s.hostTp :: s.inputs }

/-- An illegal word is answered with ILLEGAL_COMMAND and the word itself, in every lifecycle state;
no primitive is issued and no state changes (`30_encoding.md` R95, `60_exceptions.md` R205). -/
def illegalCommand (w : CommandWord) (s : State) : Result :=
  raiseError .illegalCommand (w.setWidth 32) s

/-- Block reset: the values of `10_state.md` R52, with no primitive issued (`70_reset_and_hazards.md`
R223, R224). While a handle is held it has no meaning (R224; log entry 12). -/
def resetBlock (s : State) : Result :=
  match s.block.tp with
  | none => .next (s.withBlock .reset)
  | some _ => .refused .resetWhileTransportHeld

end Sys2Proof.Machine
end

