-- ==== Sys2Proof/Machine/ConfigurationCommands.lean ====
section
/-! DEFINITION. The configuration commands, the soft reset, the data-ready check and the power-mode
read-back (`42_configuration.md`). -/

namespace Sys2Proof.Machine

/-- SET_MODE m (R158): the operand is checked before any primitive (R157, R206). -/
def execSetMode (m : Byte) (s : State) : Result :=
  whenAdmitted .other s fun s =>
    if legalMode m then (rmw fdMode m s).map fun _ => 0
    else .raised .illegalOperand (m.setWidth 32) s

/-- SET_OSRS_T lvl (R161). -/
def execSetOsrsT (lvl : Byte) (s : State) : Result :=
  whenAdmitted .other s fun s => (rmw fdOsrsT (clampLevel lvl) s).map fun _ => 0

/-- SET_OSRS_P lvl (R164). -/
def execSetOsrsP (lvl : Byte) (s : State) : Result :=
  whenAdmitted .other s fun s => (rmw fdOsrsP (clampLevel lvl) s).map fun _ => 0

/-- SET_OSRS_H lvl (R166). -/
def execSetOsrsH (lvl : Byte) (s : State) : Result :=
  whenAdmitted .other s fun s => (rmw fdOsrsH (clampLevel lvl) s).map fun _ => 0

/-- SOFT_RESET (R168): one write frame, no read before it. -/
def execSoftReset (s : State) : Result :=
  whenAdmitted .other s fun s => (writeReg Config.regReset Config.resetCmd s).map fun _ => 0

/-- GET_MODE (R178). -/
def execGetMode (s : State) : Result :=
  whenAdmitted .other s fun s =>
    (read8 Config.regCtrlMeas s).map fun p => (powerMode p).setWidth 32

/-- HAS_NEW_DATA (R174). -/
def execHasNewData (s : State) : Result :=
  whenAdmitted .other s fun s =>
    (read8 Config.regStatus s).map fun b => (newDataFlag b).setWidth 32

end Sys2Proof.Machine
end

