-- ==== Sys2Proof/Machine/LifecycleCommands.lean ====
section
/-! DEFINITION. INIT and DISPOSE (`40_lifecycle.md`), the two commands that change the lifecycle. -/

namespace Sys2Proof.Machine

/-- `init_fail`: release, no handle, FAILED, and the error goes on (R124). It catches every error
raised after the handle was acquired: RANGE, IDENTITY and TRANSPORT (R114). -/
def initFail (x : Ran Value) : Ran Value :=
  match x with
  | .raised e info s =>
    (busRelease s).andThen fun _ s =>
      .raised e info (s.withBlock { s.block with tp := none, lifecycle := .failed })
  | .done v s => .done v s
  | .stopped f => .stopped f

/-- INIT from the acquire on: address, identity, calibration, success (R114, R118, R125). -/
def initBody (s : State) : Ran Value :=
  (busAddress s).andThen fun a s =>
    if legalAddress a then
      (read8 s.params.regChipId s).andThen fun id s =>
        if id = Config.chipIdValue then
          (loadCalibration s).andThen fun c s =>
            .done 0 (s.withBlock
              { s.block with devAddr := some a, cal := some c, lifecycle := .valid })
        else .raised .identity (id.setWidth 32) s
    else .raised .range (a.setWidth 32) s

/-- INIT (R114). -/
def execInit (s : State) : Result :=
  whenAdmitted .init s fun s =>
    match s.hostTp with
    | none => .raised .argument 0 (s.withBlock { s.block with lifecycle := .failed })
    | some h => initFail (initBody (s.withBlock { s.block with tp := some h }))

/-- The release of DISPOSE: one `BusRelease` if a handle is held, nothing otherwise (R134, R135). -/
def releaseIfHeld (s : State) : Ran Unit :=
  match s.block.tp with
  | some _ =>
    (busRelease s).andThen fun _ s => .done () (s.withBlock { s.block with tp := none })
  | none => .done () s

/-- DISPOSE (R133): admitted in every state, it never fails; a release that never returns leaves it
waiting (`70_reset_and_hazards.md` R240). -/
def execDispose (s : State) : Result :=
  whenAdmitted .dispose s fun s =>
    (releaseIfHeld s).andThen fun _ s =>
      .done 0 (s.withBlock
        { s.block with cal := none, devAddr := none, lifecycle := .disposed })

end Sys2Proof.Machine
end

