-- ==== Sys2Proof/Machine/MeasurementCommands.lean ====
section
/-! DEFINITION. The raw measurement commands and the calibration read-out (`43_measurement.md`). -/

namespace Sys2Proof.Machine

/-- Three separate `read8`s, MSB, LSB, XLSB, assembled to 20 bits (R182, R183, R184). -/
def readAdcThree (msbReg lsbReg xlsbReg : Byte) (s : State) : Ran Value :=
  (read8 msbReg s).andThen fun msb s =>
    (read8 lsbReg s).andThen fun lsb s =>
      (read8 xlsbReg s).map fun xlsb => adcThreeBytes msb lsb xlsb

/-- Two separate `read8`s, MSB then LSB, assembled to 16 bits (R183, R185). -/
def readAdcTwo (msbReg lsbReg : Byte) (s : State) : Ran Value :=
  (read8 msbReg s).andThen fun msb s => (read8 lsbReg s).map fun lsb => adcTwoBytes msb lsb

/-- READ_ADC_T (R182). -/
def execReadAdcT (s : State) : Result :=
  whenAdmitted .other s fun s => readAdcThree s.params.regTMsb s.params.regTLsb s.params.regTXlsb s

/-- READ_ADC_P (R184). -/
def execReadAdcP (s : State) : Result :=
  whenAdmitted .other s fun s => readAdcThree s.params.regPMsb s.params.regPLsb s.params.regPXlsb s

/-- READ_ADC_H (R185). -/
def execReadAdcH (s : State) : Result :=
  whenAdmitted .other s fun s => readAdcTwo s.params.regHMsb s.params.regHLsb s

/-- READ_CAL i (R192): the raw bits from the store, with no primitive issued (R194). -/
def execReadCal (i : Byte) (s : State) : Result :=
  whenAdmitted .other s fun s =>
    if h : i.toNat < 20 then
      match s.block.cal with
      | some store => .done store[i.toNat].raw s
      | none => .stopped .noCalibrationStore
    else .raised .illegalOperand (i.setWidth 32) s

end Sys2Proof.Machine
end

