-- ==== Sys2Proof/Machine/RegisterCommands.lean ====
section
/-! DEFINITION. READ8, READ16 and WRITE8 (`41_register_primitives.md`): the register primitives
exposed to the host. -/

namespace Sys2Proof.Machine

/-- READ8 r (R141). -/
def execRead8 (r : Byte) (s : State) : Result :=
  whenAdmitted .other s fun s => (read8 r s).map fun b => b.setWidth 32

/-- READ16 r (R144). -/
def execRead16 (r : Byte) (s : State) : Result :=
  whenAdmitted .other s fun s => (read16 r s).map fun v => v.setWidth 32

/-- WRITE8 r, v (R148). -/
def execWrite8 (r v : Byte) (s : State) : Result :=
  whenAdmitted .other s fun s => (writeReg r v s).map fun _ => 0

end Sys2Proof.Machine
end

