-- ==== Sys2Proof/Machine/Dispatch.lean ====
section
/-! DEFINITION. One arm for each command of Instr. -/

namespace Sys2Proof.Machine

def exec (i : Instr) (s : State) : Host.Outcome State Fault Refusal :=
  match i with
  | .init => Sys2Proof.Machine.execInit s
  | .dispose => Sys2Proof.Machine.execDispose s
  | .read8 r => Sys2Proof.Machine.execRead8 r s
  | .read16 r => Sys2Proof.Machine.execRead16 r s
  | .write8 r v => Sys2Proof.Machine.execWrite8 r v s
  | .setMode m => Sys2Proof.Machine.execSetMode m s
  | .setOsrsT lvl => Sys2Proof.Machine.execSetOsrsT lvl s
  | .setOsrsP lvl => Sys2Proof.Machine.execSetOsrsP lvl s
  | .setOsrsH lvl => Sys2Proof.Machine.execSetOsrsH lvl s
  | .softReset => Sys2Proof.Machine.execSoftReset s
  | .getMode => Sys2Proof.Machine.execGetMode s
  | .hasNewData => Sys2Proof.Machine.execHasNewData s
  | .readAdcT => Sys2Proof.Machine.execReadAdcT s
  | .readAdcP => Sys2Proof.Machine.execReadAdcP s
  | .readAdcH => Sys2Proof.Machine.execReadAdcH s
  | .readCal idx => Sys2Proof.Machine.execReadCal idx s

end Sys2Proof.Machine
end

