-- ==== Sys2Proof/Machine/Step.lean ====
section
/-! DEFINITION. One step: one input of the host, run to its response (`60_exceptions.md` R219). -/

namespace Sys2Proof.Machine

/-- One step. With no input the block waits; a command word is decoded first (`60_exceptions.md`
R204) and then run or answered with ILLEGAL_COMMAND; a block reset resets the block. -/
def step (s : State) : Host.Outcome State Fault Refusal :=
  match takeInput s with
  | .idle => .next s
  | .word w t =>
    match decode w with
    | .command i => exec i t
    | .illegalCommand => illegalCommand w t
  | .reset t => resetBlock t

/-- The host issues the word of `w`'s low `nbits` bits next, presenting the handle it presents now. A
word has 24 bits: of a longer number the low 24 are issued (DESIGN CHOICE, log entry 1). -/
def State.withFetchWord (s : State) (nbits w : Nat) : State :=
  issueWord (BitVec.ofNat 24 (w % 2 ^ nbits)) s

end Sys2Proof.Machine
end

