-- ==== Sys2Proof/Machine/Assembler.lean ====
section
/-! DEFINITION. The assembler syntax of `30_encoding.md` R104 to R106, by which test programs are
written: a mnemonic, operands separated by commas, `;` comments, no pseudo-instructions. What R104
leaves open of the text is log entry 15. -/

namespace Sys2Proof.Machine

/-- Which symbols an operand may be written with (R105). -/
inductive OperandKind where
  /-- A register address or a data byte: numbers only. -/
  | number
  /-- A mode. -/
  | mode
  /-- An oversampling level. -/
  | level
  /-- A calibration index. -/
  | calIndex
deriving DecidableEq, Repr

/-- The symbolic operands of R105. -/
def OperandKind.symbols : OperandKind → List (String × Byte)
  | .number => []
  | .mode => [("SLEEP", 0), ("FORCED", 1)]
  | .level => [("SKIPPED", 0), ("X1", 1), ("X2", 2), ("X4", 3), ("X8", 4), ("X16", 5)]
  | .calIndex => [("T1", 0), ("T2", 1), ("T3", 2), ("P1", 3), ("P2", 4), ("P3", 5), ("P4", 6),
      ("P5", 7), ("P6", 8), ("P7", 9), ("P8", 10), ("P9", 11), ("P10", 12), ("H1", 13), ("H2", 14),
      ("H3", 15), ("H4", 16), ("H5", 17), ("H6", 18), ("H7", 19)]

/-- The mnemonics of R92 as they are written. -/
def mnemonicNames : List (String × Mnemonic) := [
  ("INIT", .INIT), ("DISPOSE", .DISPOSE), ("READ8", .READ8), ("READ16", .READ16),
  ("WRITE8", .WRITE8), ("SET_MODE", .SET_MODE), ("SET_OSRS_T", .SET_OSRS_T),
  ("SET_OSRS_P", .SET_OSRS_P), ("SET_OSRS_H", .SET_OSRS_H), ("SOFT_RESET", .SOFT_RESET),
  ("GET_MODE", .GET_MODE), ("HAS_NEW_DATA", .HAS_NEW_DATA), ("READ_ADC_T", .READ_ADC_T),
  ("READ_ADC_P", .READ_ADC_P), ("READ_ADC_H", .READ_ADC_H), ("READ_CAL", .READ_CAL)]

/-- The operands a mnemonic takes, in order (R91, R93). -/
def operandKinds : Mnemonic → List OperandKind
  | .INIT => []
  | .DISPOSE => []
  | .READ8 => [.number]
  | .READ16 => [.number]
  | .WRITE8 => [.number, .number]
  | .SET_MODE => [.mode]
  | .SET_OSRS_T => [.level]
  | .SET_OSRS_P => [.level]
  | .SET_OSRS_H => [.level]
  | .SOFT_RESET => []
  | .GET_MODE => []
  | .HAS_NEW_DATA => []
  | .READ_ADC_T => []
  | .READ_ADC_P => []
  | .READ_ADC_H => []
  | .READ_CAL => [.calIndex]

/-- The entry of a table whose name is written `text`. -/
def lookupName {α : Type} (table : List (String × α)) (text : List Char) : Option α :=
  (table.find? fun row => row.1.toList == text).map (·.2)

/-- The value of one digit, already in upper case. -/
def digitValue (base : Nat) (c : Char) : Option Nat :=
  let v := if '0' ≤ c ∧ c ≤ '9' then c.toNat - 48 else if 'A' ≤ c ∧ c ≤ 'F' then c.toNat - 55 else base
  if v < base then some v else none

/-- The number written by a list of digits after the value `acc`. -/
def digitsValue (base acc : Nat) : List Char → Option Nat
  | [] => some acc
  | c :: cs =>
    match digitValue base c with
    | some v => digitsValue base (base * acc + v) cs
    | none => none

/-- A number: hexadecimal with `0x`, else decimal (R104). -/
def numberValue : List Char → Option Nat
  | '0' :: 'X' :: d :: ds => digitsValue 16 0 (d :: ds)
  | d :: ds => digitsValue 10 0 (d :: ds)
  | [] => none

/-- One operand: a symbol of its kind, or a number that fits a byte. -/
def operandValue (kind : OperandKind) (text : List Char) : Option Byte :=
  match lookupName kind.symbols text with
  | some v => some v
  | none =>
    match numberValue text with
    | some n => if n < 256 then some (BitVec.ofNat 8 n) else none
    | none => none

/-- The blanks at both ends are dropped. -/
def trimBlanks (text : List Char) : List Char :=
  ((text.dropWhile (·.isWhitespace)).reverse.dropWhile (·.isWhitespace)).reverse

/-- The operands separated by commas (R104). -/
def splitCommas : List Char → List (List Char)
  | [] => [[]]
  | c :: cs =>
    if c = ',' then [] :: splitCommas cs
    else
      match splitCommas cs with
      | w :: ws => (c :: w) :: ws
      | [] => [[c]]

/-- The word of a mnemonic and its written operands; absent operands are 0 (R104). -/
def assembleOperands (m : Mnemonic) (texts : List (List Char)) : Option CommandWord :=
  match operandKinds m, texts with
  | [], [] => some (assembleFields m.op 0 0)
  | [k], [t] => (operandValue k t).map fun a => assembleFields m.op a 0
  | [k, l], [t, u] =>
    (operandValue k t).bind fun a => (operandValue l u).map fun b => assembleFields m.op a b
  | _, _ => none

/-- What one source line holds. -/
inductive SourceLine where
  /-- Nothing but blanks and a comment. -/
  | blank
  /-- One command word. -/
  | word (w : CommandWord)
  /-- No line of the syntax. -/
  | malformed
deriving DecidableEq, Repr

/-- One source line: the comment is dropped, mnemonics and symbols are case-insensitive (R104). The
whole line is read in upper case, so a number may be written with `0x` or `0X` and with hex digits of
either case (DESIGN CHOICE, log entry 15). -/
def assembleLine (line : String) : SourceLine :=
  let text := (trimBlanks (line.toList.takeWhile (· ≠ ';'))).map Char.toUpper
  let name := text.takeWhile fun c => !c.isWhitespace
  let rest := trimBlanks (text.dropWhile fun c => !c.isWhitespace)
  if text = [] then .blank
  else
    match lookupName mnemonicNames name with
    | some m =>
      let texts := if rest = [] then [] else (splitCommas rest).map trimBlanks
      match assembleOperands m texts with
      | some w => .word w
      | none => .malformed
    | none => .malformed

/-- A program's words, in the order of its lines. One malformed line leaves the whole program without
words (DESIGN CHOICE, log entry 15). -/
def assembleProgram : List String → Option (List CommandWord)
  | [] => some []
  | line :: lines =>
    match assembleLine line with
    | .blank => assembleProgram lines
    | .word w => (assembleProgram lines).map fun ws => w :: ws
    | .malformed => none

end Sys2Proof.Machine
end

