-- ==== Sys2Proof/Machine/RefDevice.lean ====
section
/-! DEFINITION. The reference device of `92_eei_decisions.md` D28: not a part of the machine, whose
device is an oracle (`20_memory.md` R60), but a judge of traces. It accepts a trace when every byte
read is the byte it holds. The statement of `42_configuration.md` R180 and the vectors of
`95_test_vectors.md` speak of it (log entry 14). -/

namespace Sys2Proof.Machine

/-- Storage as address and byte pairs, addresses strictly rising, with no entry equal to the 0x00
that an unlisted address reads as (`95_test_vectors.md` section 1). -/
abbrev Memory := List Host.Cell

/-- The canonical form, from the address `lo` on: 256 addresses at most. -/
def Memory.wfFrom : Nat → Memory → Bool
  | _, [] => true
  | lo, (k, b) :: rest => lo ≤ k && k < 256 && b != 0 && Memory.wfFrom (k + 1) rest

/-- The canonical form of the reference device's storage. -/
def Memory.wf (m : Memory) : Bool := Memory.wfFrom 0 m

/-- The byte at an address. -/
def Memory.read : Memory → Byte → Byte
  | [], _ => 0
  | (k, b) :: rest, a => if a.toNat = k then b else Memory.read rest a

/-- Storing a byte keeps the canonical form: a stored 0x00 removes the entry. -/
def Memory.write : Memory → Byte → Byte → Memory
  | [], a, v => if v = 0 then [] else [(a.toNat, v)]
  | (k, b) :: rest, a, v =>
    if a.toNat < k then (if v = 0 then (k, b) :: rest else (a.toNat, v) :: (k, b) :: rest)
    else if a.toNat = k then (if v = 0 then rest else (k, v) :: rest)
    else (k, b) :: Memory.write rest a v

/-- The reference device: 256 bytes of storage and the register pointer (D28). -/
structure RefDevice where
  image : Memory
  pointer : Byte
deriving DecidableEq, Repr

/-- The bytes read are those at the pointer, which adds 1 modulo 256 after each (D28). -/
def RefDevice.serves : List Byte → RefDevice → Option RefDevice
  | [], d => some d
  | b :: rest, d =>
    if b = d.image.read d.pointer then RefDevice.serves rest { d with pointer := d.pointer + 1 }
    else none

/-- The device after one event, or none where it is no event of this device: a byte it does not hold,
a frame of another shape, or a fault, of which it has none (D28). -/
def RefDevice.observe (d : RefDevice) : Event → Option RefDevice
  | .addr _ => some d
  | .wrB r => some { d with pointer := r }
  | .wrN [r, v] => some { d with image := d.image.write r v }
  | .wrN _ => none
  | .rdB b => d.serves [b]
  | .rdN bytes => d.serves bytes
  | .rel => some d
  | .wrBFault _ => none
  | .wrNFault _ => none
  | .rdBFault => none
  | .rdNFault _ => none

/-- The device after a trace, or none where the trace is not one of this device. -/
def RefDevice.accepts : List Event → RefDevice → Option RefDevice
  | [], d => some d
  | e :: es, d =>
    match d.observe e with
    | some d' => RefDevice.accepts es d'
    | none => none

end Sys2Proof.Machine
end

