-- ==== Sys2Proof/Machine/Runner.lean ====
section
/-! DEFINITION. The host-side runner of test programs (`70_reset_and_hazards.md` R231,
`00_scope.md` R17), the spec's own convention and no part of the block. -/

namespace Sys2Proof.Machine

/-- The host issues one word, presenting `tp` beside it, and the block runs it. -/
def issue (tp : Option TransportHandle) (w : CommandWord) (s : State) : Result :=
  step { s with inputs := .command w tp :: s.inputs }

/-- The end of a program (R231): the index, and the state with the trace and the responses in it. -/
structure ProgramEnd where
  index : Nat
  state : State
deriving DecidableEq, Repr

/-- The status of the last response delivered. -/
def State.lastStatus (s : State) : Option Status := s.responses.getLast?.map (·.status)

/-- The words are issued in order from index `n`; the index advances after each response; the runner
stops after the last word or right after the first response whose status is not OK (R231). -/
def runProgram (tp : Option TransportHandle) :
    List CommandWord → Nat → State → Host.Outcome ProgramEnd Fault Refusal
  | [], n, s => .next ⟨n, s⟩
  | w :: ws, n, s =>
    match issue tp w s with
    | .next t => if t.lastStatus = some .ok then runProgram tp ws (n + 1) t else .next ⟨n + 1, t⟩
    | .fault f => .fault f
    | .refused r => .refused r

/-- A list of decoded commands run one after the other, whatever their responses. -/
def execAll : List Instr → State → Result
  | [], s => .next s
  | i :: is, s =>
    match exec i s with
    | .next t => execAll is t
    | .fault f => .fault f
    | .refused r => .refused r

end Sys2Proof.Machine
end

