-- ==== Sys2Proof/Safety.lean ====
section
/-! DEFINITION. What counts as a safe run, and the terms the claims are stated in: the invariants of
a run, the frames and values the spec gives each command, written apart from the meanings. -/

namespace Sys2Proof.Machine

/-! ### The invariant of a run -/

/-- A handle, a device address and a store are held exactly in VALID, and the address is the handle's
own and legal (`10_state.md` R29, R31, R32). -/
def BlockState.consistent (b : BlockState) : Bool :=
  match b.lifecycle, b.tp, b.devAddr, b.cal with
  | .valid, some h, some a, some _ => legalAddress a && h.address == a
  | .uninit, none, none, none => true
  | .failed, none, none, none => true
  | .disposed, none, none, none => true
  | _, _, _, _ => false

/-- Whether a handle is held after a trace that began with `held`; none where the trace queries a
handle while one is held, uses one while none is, or releases one twice (`20_memory.md` R68). -/
def heldAfter : Bool → List Event → Option Bool
  | held, [] => some held
  | false, .addr _ :: es => heldAfter true es
  | true, .rel :: es => heldAfter false es
  | false, _ :: _ => none
  | true, .addr _ :: _ => none
  | true, _ :: es => heldAfter true es

/-- The invariant: the block state is consistent, and the whole trace uses the transport as R68 says
and ends with the handle held exactly when the block holds one. -/
abbrev State.Inv (s : State) : Prop :=
  s.block.consistent = true ∧ heldAfter false s.trace = some s.block.tp.isSome

/-- The address query and the release of a handle both return. -/
abbrev TransportHandle.Prompt (h : TransportHandle) : Prop :=
  h.addressReturns = true ∧ h.releaseReturns = true

/-- The release of the handle the block holds, if it holds one, returns. -/
def State.ReleaseReturns (s : State) : Prop :=
  ∀ h, s.block.tp = some h → h.releaseReturns = true

/-- A VALID block with its handle: what every command but INIT and DISPOSE needs to run. -/
abbrev State.Ready (s : State) : Prop := s.block.lifecycle = .valid ∧ s.block.tp.isSome = true

/-! ### Shapes of a trace -/

/-- The event is a transport fault. -/
def Event.isFault : Event → Bool
  | .wrBFault _ => true
  | .wrNFault _ => true
  | .rdBFault => true
  | .rdNFault _ => true
  | .addr _ => false
  | .wrB _ => false
  | .wrN _ => false
  | .rdB _ => false
  | .rdN _ => false
  | .rel => false

/-- The event is a write frame that carries data, completed or not. -/
def Event.isDataWrite : Event → Bool
  | .wrN _ => true
  | .wrNFault _ => true
  | .addr _ => false
  | .wrB _ => false
  | .rdB _ => false
  | .rdN _ => false
  | .rel => false
  | .wrBFault _ => false
  | .rdBFault => false
  | .rdNFault _ => false

/-- No transfer event follows a fault: after one the trace ends, or ends with `Rel` (R65). -/
def faultEndsTrace : List Event → Bool
  | [] => true
  | e :: es => if e.isFault then es == [] || es == [.rel] else faultEndsTrace es

/-- Every read stands right after a completed register select of the same trace (R50, R98, R100);
`selected` says whether one stands right before. -/
def readsFollowSelects : Bool → List Event → Bool
  | _, [] => true
  | _, .wrB _ :: es => readsFollowSelects true es
  | selected, .rdB _ :: es => selected && readsFollowSelects false es
  | selected, .rdN _ :: es => selected && readsFollowSelects false es
  | selected, .rdBFault :: es => selected && readsFollowSelects false es
  | selected, .rdNFault _ :: es => selected && readsFollowSelects false es
  | _, _ :: es => readsFollowSelects false es

/-! ### What the transport answers, and the state after a command -/

/-- The first byte of the `k`-th answer from now (0 where it returns none). -/
def State.byte (s : State) (k : Nat) : Byte :=
  match s.answer k with
  | .returns b _ => b
  | .faults => 0
  | .never => 0

/-- The second byte of the `k`-th answer from now (0 where it returns none). -/
def State.byte2 (s : State) (k : Nat) : Byte :=
  match s.answer k with
  | .returns _ b => b
  | .faults => 0
  | .never => 0

/-- The next `n` primitives complete. -/
def State.Returning (s : State) (n : Nat) : Prop := ∀ k < n, ∃ b0 b1, s.answer k = .returns b0 b1

/-- `s` with `n` answers taken, `evs` recorded and one response delivered; everything else, the whole
block state included, is as in `s`. -/
def State.after (s : State) (n : Nat) (evs : List Event) (st : Status) (v : Value) : State :=
  { s with
    answers := s.answers.drop n
    drawn := s.drawn + n
    trace := s.trace ++ evs
    responses := s.responses ++ [⟨st, v⟩] }

/-- The events of completed calls, answered from the `k`-th answer on. -/
def okEventsFrom (s : State) : Nat → List BusCall → List Event
  | _, [] => []
  | k, c :: cs => c.okEvent (s.byte k) (s.byte2 k) :: okEventsFrom s (k + 1) cs

/-! ### The frames of R102 -/

/-- Select, then read one byte. -/
def framesRead8 (r : Byte) : List BusCall := [.writeByte r, .readByte]

/-- Select, read one byte, write the packed byte. -/
def framesRmw (fd : FieldDesc) (v prior : Byte) : List BusCall :=
  [.writeByte fd.reg, .readByte, .writeBytes [fd.reg, fd.pack prior v]]

/-- The calls a command of a VALID block makes, as the table of `30_encoding.md` R102 lists its
frames. The byte that a read-modify-write packs is the one its read returns, the second answer. -/
def frames (s : State) : Instr → List BusCall
  | .init => []
  | .dispose => []
  | .read8 r => framesRead8 r
  | .read16 r => [.writeByte r, .readTwoBytes]
  | .write8 r v => [.writeBytes [r, v]]
  | .setMode m => framesRmw fdMode m (s.byte 1)
  | .setOsrsT lvl => framesRmw fdOsrsT (clampLevel lvl) (s.byte 1)
  | .setOsrsP lvl => framesRmw fdOsrsP (clampLevel lvl) (s.byte 1)
  | .setOsrsH lvl => framesRmw fdOsrsH (clampLevel lvl) (s.byte 1)
  | .softReset => [.writeBytes [0xE0, 0xB6]]
  | .getMode => framesRead8 0x74
  | .hasNewData => framesRead8 0x1D
  | .readAdcT =>
    framesRead8 s.params.regTMsb ++ framesRead8 s.params.regTLsb ++ framesRead8 s.params.regTXlsb
  | .readAdcP =>
    framesRead8 s.params.regPMsb ++ framesRead8 s.params.regPLsb ++ framesRead8 s.params.regPXlsb
  | .readAdcH => framesRead8 s.params.regHMsb ++ framesRead8 s.params.regHLsb
  | .readCal _ => []

/-- The calls that load one constant (R121). -/
def framesConstant : Config.CalEntry → List BusCall
  | .r16 lsbAddr => [.writeByte lsbAddr, .readTwoBytes]
  | .r8 addr => framesRead8 addr
  | .nibLo msbAddr shared => framesRead8 msbAddr ++ framesRead8 shared
  | .nibHi msbAddr shared => framesRead8 msbAddr ++ framesRead8 shared

/-- The calls that load the first `n` constants (R121). -/
def framesCalibration (m : Config.CalMap) (n : Nat) : List BusCall :=
  (m.toList.take n).flatMap framesConstant

/-- The calls of an INIT that gets through: the chip-ID read, then the loader (R102). -/
def framesInit (p : Config.Params) : List BusCall :=
  framesRead8 p.regChipId ++ framesCalibration p.calMap 20

/-- The value of one constant, loaded from the `k`-th answer on (R121, R123). -/
def constantFrom (s : State) (k : Nat) : Config.CalEntry → CalValue
  | .r16 _ => .bits16 (littleEndian (s.byte (k + 1)) (s.byte2 (k + 1)))
  | .r8 _ => .bits8 (s.byte (k + 1))
  | .nibLo _ _ => .bits12 (nibbleLow (s.byte (k + 1)) (s.byte (k + 3)))
  | .nibHi _ _ => .bits12 (nibbleHigh (s.byte (k + 1)) (s.byte (k + 3)))

/-- The store an INIT loads: constant `i` from the answers to its own calls, the first two answers
being those of the chip-ID read. -/
def storeFrom (s : State) : CalStore :=
  Vector.ofFn fun i : Fin 20 =>
    constantFrom s (2 + (framesCalibration s.params.calMap i).length) s.params.calMap[i]

/-- The most primitive calls a command makes (`70_reset_and_hazards.md` R239), INIT's for the
calibration map in use. -/
def callBound (p : Config.Params) : Instr → Nat
  | .init => 4 + (framesCalibration p.calMap 20).length
  | .dispose => 1
  | .read8 _ => 2
  | .read16 _ => 2
  | .write8 _ _ => 1
  | .setMode _ => 3
  | .setOsrsT _ => 3
  | .setOsrsP _ => 3
  | .setOsrsH _ => 3
  | .softReset => 1
  | .getMode => 2
  | .hasNewData => 2
  | .readAdcT => 6
  | .readAdcP => 6
  | .readAdcH => 4
  | .readCal _ => 0

/-- Whatever call of the list is the first to fault, the command ends there: the completed events and
the fault event are recorded, the response is (TRANSPORT, 0), the block state is as before (R199,
R200, R209). -/
def FaultsStop (i : Instr) (s : State) (calls : List BusCall) : Prop :=
  ∀ (k : Nat) (hk : k < calls.length), s.Returning k → s.answer k = .faults →
    exec i s = .next
      (s.after (k + 1) (okEventsFrom s 0 (calls.take k) ++ [calls[k].faultEvent]) .transport 0)

/-- Outside VALID the command is answered with STATE or DISPOSED, issues no primitive and changes no
state (R203). -/
def RefusedOutsideValid (i : Instr) (s : State) : Prop :=
  s.block.lifecycle ≠ .valid →
    ∃ e v, (e = .state ∨ e = .disposed) ∧ exec i s = .next (s.after 0 [] e v)

/-! ### Admission, calibration widths and configured fields -/

/-- The column of the admission table a command stands in (R203). -/
def kindOf : Instr → CommandKind
  | .init => .init
  | .dispose => .dispose
  | .read8 _ => .other
  | .read16 _ => .other
  | .write8 _ _ => .other
  | .setMode _ => .other
  | .setOsrsT _ => .other
  | .setOsrsP _ => .other
  | .setOsrsH _ => .other
  | .softReset => .other
  | .getMode => .other
  | .hasNewData => .other
  | .readAdcT => .other
  | .readAdcP => .other
  | .readAdcH => .other
  | .readCal _ => .other

/-- The width of the constant an entry loads (R121). -/
def entryWidth : Config.CalEntry → Nat
  | .r16 _ => 16
  | .r8 _ => 8
  | .nibLo _ _ => 12
  | .nibHi _ _ => 12

/-- The widths of `10_state.md` R34 by index; those of P1 to P10 are the default map's. -/
def statedWidths : List Nat := [16, 16, 8, 16, 16, 8, 16, 16, 8, 8, 16, 16, 8, 12, 12, 8, 8, 8, 8, 8]

/-- The levels and modes the three fields of 0x74 were last given by a list of commands: temperature
level, pressure level, mode; none where no command of that kind has been issued (R180). -/
structure LastSet where
  osrsT : Option Byte
  osrsP : Option Byte
  mode : Option Byte
deriving DecidableEq, Repr

/-- `LastSet` after one more command; levels are recorded clamped. -/
def LastSet.note (l : LastSet) : Instr → LastSet
  | .setOsrsT lvl => { l with osrsT := some (clampLevel lvl) }
  | .setOsrsP lvl => { l with osrsP := some (clampLevel lvl) }
  | .setMode m => { l with mode := some m }
  | _ => l

/-- The command is one of the four of R180, with a legal operand. -/
def isFieldWrite : Instr → Bool
  | .setMode m => legalMode m
  | .setOsrsT _ => true
  | .setOsrsP _ => true
  | .setOsrsH _ => true
  | _ => false

end Sys2Proof.Machine
end

