-- ==== Sys2Proof/Certificates/Slice0/Obligations.lean ====
section
/-! DEFINITION. The statements for the provers. Each docstring names the rules of spec/ it rests on;
where a clause is the model's own choice it says so and names the log entry. -/

open Sys2Proof Sys2Proof.Machine

/-! ### The command word -/

/-- R89 to R94: every command, with every operand at every value its fields allow, decodes from its
own word. -/
def Obligations.DecodeOfEncodeIsTheCommand : Prop :=
  ∀ i : Instr, decode (encode i) = .command i

/-- R92, R94: a word has one meaning only, so the word of what it decodes to is the word itself. -/
def Obligations.EncodeOfDecodeIsTheWord : Prop :=
  ∀ (w : CommandWord) (i : Instr), decode w = .command i → encode i = w

/-- R91, R92: a row's match and mask select exactly the words with the row's `OP` whose must-be-0
fields are 0, and no word selects two rows. -/
def Obligations.OpcodeRowsSelectByFieldsAndAreDisjoint : Prop :=
  ∀ w : CommandWord,
    (∀ row ∈ opcodeMap, row.selects w = true ↔
      opField w = row.op ∧ (row.form ≠ .ab → bField w = 0) ∧ (row.form = .n → aField w = 0)) ∧
    (∀ row ∈ opcodeMap, ∀ row' ∈ opcodeMap,
      row.selects w = true → row'.selects w = true → row = row')

/-- R95, R205: a word is illegal exactly when its `OP` is unassigned or a must-be-0 field is nonzero;
in every lifecycle state it is answered with ILLEGAL_COMMAND and the word, no primitive is issued and
no state changes. -/
def Obligations.IllegalWordIsAnsweredWithItself : Prop :=
  ∀ (s : State) (w : CommandWord) (tp : Option TransportHandle) (rest : List HostInput),
    (decode w = .illegalCommand ↔
      (∀ m : Mnemonic, opField w ≠ m.op) ∨
      (∃ row ∈ opcodeMap, opField w = row.op ∧
        ((row.form ≠ .ab ∧ bField w ≠ 0) ∨ (row.form = .n ∧ aField w ≠ 0)))) ∧
    (s.inputs = .command w tp :: rest → decode w = .illegalCommand →
      step s = .next
        (({ s with inputs := rest, hostTp := tp } : State).after 0 [] .illegalCommand (w.setWidth 32)))

/-- The words of `95_test_vectors.md` section 3.1: each assembles from the text given there and
decodes to the command it stands for. -/
def Obligations.SpecWordsAssembleAndDecode : Prop :=
  (assembleLine "INIT" = .word 0x010000 ∧ decode 0x010000 = .command .init) ∧
  (assembleLine "DISPOSE" = .word 0x020000 ∧ decode 0x020000 = .command .dispose) ∧
  (assembleLine "READ8 0x74" = .word 0x107400 ∧ decode 0x107400 = .command (.read8 0x74)) ∧
  (assembleLine "READ16 0xE9" = .word 0x11E900 ∧ decode 0x11E900 = .command (.read16 0xE9)) ∧
  (assembleLine "WRITE8 0x72, 0x05" = .word 0x127205 ∧
    decode 0x127205 = .command (.write8 0x72 0x05)) ∧
  (assembleLine "SET_MODE FORCED" = .word 0x200100 ∧ decode 0x200100 = .command (.setMode 1)) ∧
  (assembleLine "SET_OSRS_P X16" = .word 0x220500 ∧ decode 0x220500 = .command (.setOsrsP 5)) ∧
  (assembleLine "READ_ADC_T" = .word 0x300000 ∧ decode 0x300000 = .command .readAdcT) ∧
  (assembleLine "READ_CAL H7" = .word 0x401300 ∧ decode 0x401300 = .command (.readCal 19))

/-! ### Steps, reset and the host -/

/-- R94, R204, R219: a word that decodes is run as the command it decodes to. That one step takes one
queued input (log entry 2) and that a handle is presented beside every word, where R30 gives it to
INIT (log entry 3), are the model's choices. -/
def Obligations.StepRunsTheDecodedCommand : Prop :=
  ∀ (s : State) (w : CommandWord) (tp : Option TransportHandle) (rest : List HostInput) (i : Instr),
    s.inputs = .command w tp :: rest → decode w = .command i →
      step s = exec i { s with inputs := rest, hostTp := tp }

/-- R52: the reset values of block state, whatever the OPEN parameters. -/
def Obligations.ResetBlockState : Prop :=
  State.reset.block = ⟨.uninit, none, none, none⟩ ∧
  ∀ p : Config.Params, (State.resetWith p).block = ⟨.uninit, none, none, none⟩

/-- R223, R224: a block reset with no handle held gives the reset values and issues no primitive and
no response; with a handle held the model gives it no meaning. -/
def Obligations.BlockResetStep : Prop :=
  ∀ (s : State) (rest : List HostInput), s.inputs = .blockReset :: rest →
    (s.block.tp = none → step s =
      .next { s with inputs := rest, block := ⟨.uninit, none, none, none⟩ }) ∧
    (s.block.tp.isSome = true → step s = .refused .resetWhileTransportHeld)

/-- The model's reading of R223's "the block waits for a command" (log entry 2): with no input a step
changes nothing. -/
def Obligations.BlockWaitsWithoutInput : Prop :=
  ∀ s : State, s.inputs = [] → step s = .next s

/-- The frame of a step: the OPEN parameters stay (R9), at most one response comes (R196), and events
and responses are only added. That the parameters stand in State (log entry 7), that answers are taken
from the front of a list with a counter advanced by as many (log entry 4) and that events and
responses accumulate in State (log entry 9) are the model's choices. -/
def Obligations.StepKeepsParametersAndHistory : Prop :=
  ∀ s t : State, step s = .next t →
    t.params = s.params ∧
    (∃ evs, t.trace = s.trace ++ evs) ∧
    (∃ rs, t.responses = s.responses ++ rs ∧ rs.length ≤ 1) ∧
    (∃ n, t.answers = s.answers.drop n ∧ t.drawn = s.drawn + n)

/-! ### Invariants of a run -/

/-- The invariant holds after reset, whatever the OPEN parameters. -/
def Obligations.InvariantHoldsAtReset : Prop :=
  ∀ p : Config.Params, (State.resetWith p).Inv

/-- R29, R31, R32, R68: every step keeps the invariant: a handle, a legal address of that handle and a
store are held exactly in VALID, and the transport is used only between an address query and the one
release that ends the use. -/
def Obligations.StepKeepsInvariant : Prop :=
  ∀ s t : State, s.Inv → step s = .next t → t.Inv

/-- The only ways a step stops, from a state that meets the invariant: with a transport whose
primitives all return or fault (the assumption of D20: no answer is silence, and the handle held and
the handle presented with the next word answer their own calls), every input but a reset of a block
that holds a handle is answered with a next state. -/
def Obligations.OnlySilenceOrHeldResetStops : Prop :=
  ∀ s : State, s.Inv → (∀ k, s.answer k ≠ .never) → s.ReleaseReturns →
    (∀ w h rest, s.inputs = .command w (some h) :: rest → h.Prompt) →
    (∀ rest, s.inputs = .blockReset :: rest → s.block.tp = none) → ∃ t, step s = .next t

/-! ### Lifecycle and admission -/

/-- R28: the lifecycle after each command, and which commands end in an error. -/
def Obligations.LifecycleTransitions : Prop :=
  ∀ (i : Instr) (s t : State), exec i s = .next t →
    ∃ r : Response, t.responses = s.responses ++ [r] ∧
      (i = .dispose → t.block.lifecycle = .disposed ∧ r.status = .ok) ∧
      (i = .init → s.block.lifecycle = .uninit →
        t.block.lifecycle = if r.status = .ok then .valid else .failed) ∧
      (i = .init → s.block.lifecycle ≠ .uninit →
        t.block.lifecycle = s.block.lifecycle ∧ r.status ≠ .ok) ∧
      (i ≠ .init → i ≠ .dispose → t.block.lifecycle = s.block.lifecycle) ∧
      (i ≠ .init → i ≠ .dispose → s.block.lifecycle ≠ .valid → r.status ≠ .ok)

/-- R203, R208, R210: the admission table, cell by cell. A refused command issues no primitive and
changes no state; an admitted one is never answered with STATE or DISPOSED. -/
def Obligations.AdmissionTable : Prop :=
  ∀ (i : Instr) (s : State),
    (s.block.lifecycle = .uninit → i ≠ .init → i ≠ .dispose →
      exec i s = .next (s.after 0 [] .state 0)) ∧
    (s.block.lifecycle = .valid → i = .init → exec i s = .next (s.after 0 [] .state 1)) ∧
    (s.block.lifecycle = .failed → i ≠ .dispose → exec i s = .next (s.after 0 [] .state 2)) ∧
    (s.block.lifecycle = .disposed → i ≠ .dispose →
      exec i s = .next (s.after 0 [] .disposed 0)) ∧
    (∀ t, exec i s = .next t →
      i = .dispose ∨ (s.block.lifecycle = .uninit ∧ i = .init) ∨
        (s.block.lifecycle = .valid ∧ i ≠ .init) →
      ∃ r : Response, t.responses = s.responses ++ [r] ∧ r.status ≠ .state ∧ r.status ≠ .disposed)

/-- R204: the order of the checks on a word. An illegal word is ILLEGAL_COMMAND in every lifecycle
state; a decoded command that the lifecycle does not accept is STATE or DISPOSED whatever its operand;
only in VALID does an illegal operand give ILLEGAL_OPERAND, before any primitive. -/
def Obligations.CheckOrder : Prop :=
  ∀ (s : State) (w : CommandWord) (tp : Option TransportHandle) (rest : List HostInput) (i : Instr),
    s.inputs = .command w tp :: rest →
    (decode w = .illegalCommand → ∃ t r, step s = .next t ∧ t.responses = s.responses ++ [r] ∧
      r.status = .illegalCommand) ∧
    (decode w = .command i → i ≠ .init → i ≠ .dispose → s.block.lifecycle ≠ .valid →
      ∃ t r, step s = .next t ∧ t.trace = s.trace ∧ t.responses = s.responses ++ [r] ∧
        r.status = if s.block.lifecycle = .disposed then .disposed else .state) ∧
    (decode w = .command i → i.wellFormed = false → s.block.lifecycle = .valid →
      ∃ t r, step s = .next t ∧ t.trace = s.trace ∧ t.responses = s.responses ++ [r] ∧
        r.status = .illegalOperand)

/-- R206: ILLEGAL_OPERAND is raised by SET_MODE for m > 1 and READ_CAL for i > 19, with an empty
trace, and by nothing else. -/
def Obligations.IllegalOperandExactly : Prop :=
  ∀ s : State, s.block.lifecycle = .valid →
    (∀ m : Byte, 1 < m.toNat →
      exec (.setMode m) s = .next (s.after 0 [] .illegalOperand (m.setWidth 32))) ∧
    (∀ i : Byte, 19 < i.toNat →
      exec (.readCal i) s = .next (s.after 0 [] .illegalOperand (i.setWidth 32))) ∧
    (∀ (i : Instr) (t : State), exec i s = .next t → (∀ m : Byte, 1 < m.toNat → i ≠ .setMode m) →
      (∀ j : Byte, 19 < j.toNat → i ≠ .readCal j) →
      ∃ r : Response, t.responses = s.responses ++ [r] ∧ r.status ≠ .illegalOperand)

/-- R197, R202: the status codes are those of the table, all distinct, none of them reserved. -/
def Obligations.StatusCodes : Prop :=
  (Status.ok.code = 0 ∧ Status.argument.code = 1 ∧ Status.range.code = 2 ∧
    Status.identity.code = 3 ∧ Status.transport.code = 4 ∧ Status.disposed.code = 5 ∧
    Status.illegalCommand.code = 6 ∧ Status.illegalOperand.code = 7 ∧ Status.state.code = 8) ∧
  (∀ st st' : Status, st.code = st'.code → st = st') ∧ ∀ st : Status, st.code.toNat ≤ 8

/-! ### DISPOSE -/

/-- R133, R134: DISPOSE in every lifecycle state: one release if a handle is held and nothing
otherwise, (OK, 0), and a block that is DISPOSED and holds nothing. A release that never returns is
SilentPrimitiveLeavesBlockStuck's. -/
def Obligations.DisposeReleasesAndEndsDisposed : Prop :=
  encode .dispose = 0x020000 ∧
  ∀ s : State, s.ReleaseReturns → exec .dispose s =
    .next ((s.withBlock ⟨.disposed, none, none, none⟩).after 0
      (if s.block.tp.isSome then [.rel] else []) .ok 0)

/-- R135: with no handle held DISPOSE calls no primitive and answers (OK, 0), and a second DISPOSE
after a first changes nothing but the response it adds. -/
def Obligations.DisposeIsIdempotent : Prop :=
  (∀ s : State, s.block.tp = none →
    exec .dispose s = .next ((s.withBlock ⟨.disposed, none, none, none⟩).after 0 [] .ok 0)) ∧
  (∀ s t : State, exec .dispose s = .next t → exec .dispose t = .next (t.after 0 [] .ok 0))

/-! ### INIT -/

/-- R115: with no transport presented, an admitted INIT answers (ARGUMENT, 0) with an empty trace and
leaves FAILED; no other command in any state ever answers ARGUMENT. -/
def Obligations.InitWithoutTransport : Prop :=
  (∀ s : State, s.block.lifecycle = .uninit → s.hostTp = none →
    exec .init s =
      .next ((s.withBlock { s.block with lifecycle := .failed }).after 0 [] .argument 0)) ∧
  (∀ (i : Instr) (s t : State) (v : Value), exec i s = .next t →
    t.responses = s.responses ++ [⟨.argument, v⟩] →
    i = .init ∧ s.block.lifecycle = .uninit ∧ s.hostTp = none)

/-- R207 with the conditions of R115, R116 and R117: ARGUMENT, RANGE and IDENTITY are answered by INIT
alone, each under its own condition, and leave FAILED. -/
def Obligations.ConstructionErrorsComeFromInit : Prop :=
  ∀ (i : Instr) (s t : State) (r : Response), exec i s = .next t →
    t.responses = s.responses ++ [r] →
    (r.status = .argument ∨ r.status = .range ∨ r.status = .identity →
      i = .init ∧ s.block.lifecycle = .uninit ∧ t.block.lifecycle = .failed) ∧
    (r.status = .argument → s.hostTp = none) ∧
    (r.status = .range → ∃ h, s.hostTp = some h ∧
      ¬(0x76 ≤ h.address.toNat ∧ h.address.toNat ≤ 0x77)) ∧
    (r.status = .identity → ∃ h, s.hostTp = some h ∧
      (0x76 ≤ h.address.toNat ∧ h.address.toNat ≤ 0x77) ∧ s.byte 1 ≠ 0x61)

/-- R116: the inclusive address check: outside [0x76, 0x77] INIT queries the address, releases
and answers RANGE with the address; inside, it never answers RANGE. -/
def Obligations.InitChecksAddressRange : Prop :=
  ∀ (s : State) (h : TransportHandle), s.block.lifecycle = .uninit → s.hostTp = some h → h.Prompt →
    (¬(0x76 ≤ h.address.toNat ∧ h.address.toNat ≤ 0x77) →
      exec .init s = .next ((s.withBlock { s.block with tp := none, lifecycle := .failed }).after 0
        [.addr h.address, .rel] .range (h.address.setWidth 32))) ∧
    (0x76 ≤ h.address.toNat ∧ h.address.toNat ≤ 0x77 → ∀ t, exec .init s = .next t →
      ∃ r : Response, t.responses = s.responses ++ [r] ∧ r.status ≠ .range)

/-- R117: at a legal address the chip-ID register is read once and the whole byte is compared with
0x61. Another byte gives IDENTITY with that byte and no calibration read; 0x61 never gives IDENTITY.
-/
def Obligations.InitChecksIdentity : Prop :=
  ∀ (s : State) (h : TransportHandle), s.block.lifecycle = .uninit → s.hostTp = some h → h.Prompt →
    0x76 ≤ h.address.toNat → h.address.toNat ≤ 0x77 → s.Returning 2 →
    (s.byte 1 ≠ 0x61 →
      exec .init s = .next ((s.withBlock { s.block with tp := none, lifecycle := .failed }).after 2
        [.addr h.address, .wrB s.params.regChipId, .rdB (s.byte 1), .rel] .identity
        ((s.byte 1).setWidth 32))) ∧
    (s.byte 1 = 0x61 → ∀ t, exec .init s = .next t → ∃ evs r,
      t.trace = s.trace ++ [.addr h.address, .wrB s.params.regChipId, .rdB 0x61] ++ evs ∧
      t.responses = s.responses ++ [r] ∧ r.status ≠ .identity)

/-- R119, R124: a fault of any primitive after the acquire: the events up to the fault, the release,
(TRANSPORT, 0) and FAILED; nothing is retried and no later read is issued. -/
def Obligations.InitStopsAtTransportFault : Prop :=
  ∀ (s : State) (h : TransportHandle) (k : Nat) (hk : k < (framesInit s.params).length),
    s.block.lifecycle = .uninit → s.hostTp = some h → h.Prompt →
    0x76 ≤ h.address.toNat → h.address.toNat ≤ 0x77 →
    s.Returning k → s.answer k = .faults → (2 ≤ k → s.byte 1 = 0x61) →
    exec .init s =
      .next ((s.withBlock { s.block with tp := none, lifecycle := .failed }).after (k + 1)
        (.addr h.address :: okEventsFrom s 0 ((framesInit s.params).take k) ++
          [(framesInit s.params)[k].faultEvent, .rel]) .transport 0)

/-- R114, R121, R125: at a legal address, with the chip identified and every read answered, INIT
issues the address query, the chip-ID read and the loader's reads, and answers (OK, 0) in VALID with
the handle, its address and the full store held. -/
def Obligations.InitSucceeds : Prop :=
  encode .init = 0x010000 ∧
  ∀ (s : State) (h : TransportHandle), s.block.lifecycle = .uninit → s.hostTp = some h →
    h.addressReturns = true → 0x76 ≤ h.address.toNat → h.address.toNat ≤ 0x77 →
    s.Returning (framesInit s.params).length → s.byte 1 = 0x61 →
    exec .init s =
      .next ((s.withBlock ⟨.valid, some h, some h.address, some (storeFrom s)⟩).after
        (framesInit s.params).length
        (.addr h.address :: okEventsFrom s 0 (framesInit s.params)) .ok 0)

/-- R122: with the default `CAL_MAP` (general knowledge, log entry 7) the loader issues exactly these
44 frames in this order, so that INIT issues 46 after its address query. -/
def Obligations.DefaultCalibrationFrames : Prop :=
  framesCalibration Config.defaultCalMap 20 =
    [.writeByte 0xE9, .readTwoBytes, .writeByte 0x8A, .readTwoBytes, .writeByte 0x8C, .readByte,
     .writeByte 0x8E, .readTwoBytes, .writeByte 0x90, .readTwoBytes, .writeByte 0x92, .readByte,
     .writeByte 0x94, .readTwoBytes, .writeByte 0x96, .readTwoBytes, .writeByte 0x99, .readByte,
     .writeByte 0x98, .readByte, .writeByte 0x9C, .readTwoBytes, .writeByte 0x9E, .readTwoBytes,
     .writeByte 0xA0, .readByte, .writeByte 0xE3, .readByte, .writeByte 0xE2, .readByte,
     .writeByte 0xE1, .readByte, .writeByte 0xE2, .readByte, .writeByte 0xE4, .readByte,
     .writeByte 0xE5, .readByte, .writeByte 0xE6, .readByte, .writeByte 0xE7, .readByte,
     .writeByte 0xE8, .readByte] ∧
  (framesInit Config.defaultParams).length = 46

/-- R126, which the spec marks as its own inference: INIT issues no write frame that carries data. -/
def Obligations.InitWritesNoData : Prop :=
  ∀ s t : State, exec .init s = .next t →
    ∃ evs, t.trace = s.trace ++ evs ∧ ∀ e ∈ evs, e.isDataWrite = false

/-- R34, R121: a store INIT loads holds each constant in the width of its `CAL_MAP` entry; with the
default map (log entry 7) those are the widths of the table of R34. -/
def Obligations.LoadedStoreHasTheStatedWidths : Prop :=
  (∀ (s t : State) (store : CalStore), s.block.lifecycle = .uninit → s.block.cal = none →
    exec .init s = .next t → t.block.cal = some store →
    ∀ i : Fin 20, store[i].width = entryWidth s.params.calMap[i]) ∧
  (Config.defaultCalMap.toList.map entryWidth = statedWidths)

/-- R33: in VALID no command changes the store, but DISPOSE, which destroys it. -/
def Obligations.StoreIsReadOnly : Prop :=
  ∀ (i : Instr) (s t : State), s.block.lifecycle = .valid → exec i s = .next t →
    t.block.cal = if i = .dispose then none else s.block.cal

/-! ### The register commands -/

/-- R141, R142: READ8 r. -/
def Obligations.Read8ReadsOneByte : Prop :=
  ∀ (s : State) (r : Byte),
    encode (.read8 r) = 0x10#8 ++ r ++ 0x00#8 ∧
    (s.Ready → s.Returning 2 → exec (.read8 r) s =
      .next (s.after 2 [.wrB r, .rdB (s.byte 1)] .ok ((s.byte 1).setWidth 32))) ∧
    (s.Ready → s.answer 0 = .faults →
      exec (.read8 r) s = .next (s.after 1 [.wrBFault r] .transport 0)) ∧
    (s.Ready → s.Returning 1 → s.answer 1 = .faults →
      exec (.read8 r) s = .next (s.after 2 [.wrB r, .rdBFault] .transport 0)) ∧
    RefusedOutsideValid (.read8 r) s

/-- R79, R144, R145, R146: READ16 r, least significant byte first. -/
def Obligations.Read16ReadsLittleEndian : Prop :=
  ∀ (s : State) (r : Byte),
    encode (.read16 r) = 0x11#8 ++ r ++ 0x00#8 ∧
    (s.Ready → s.Returning 2 → ∃ v : BitVec 16,
      v.toNat = (s.byte 1).toNat ||| ((s.byte2 1).toNat <<< 8) ∧
      v.extractLsb' 0 8 = s.byte 1 ∧ v.extractLsb' 8 8 = s.byte2 1 ∧
      exec (.read16 r) s =
        .next (s.after 2 [.wrB r, .rdN [s.byte 1, s.byte2 1]] .ok (v.setWidth 32))) ∧
    (s.Ready → s.answer 0 = .faults →
      exec (.read16 r) s = .next (s.after 1 [.wrBFault r] .transport 0)) ∧
    (s.Ready → s.Returning 1 → s.answer 1 = .faults →
      exec (.read16 r) s = .next (s.after 2 [.wrB r, .rdNFault 2] .transport 0)) ∧
    RefusedOutsideValid (.read16 r) s

/-- R99, R148: WRITE8 r, v. -/
def Obligations.Write8WritesOneFrame : Prop :=
  ∀ (s : State) (r v : Byte),
    encode (.write8 r v) = 0x12#8 ++ r ++ v ∧
    (s.Ready → s.Returning 1 →
      exec (.write8 r v) s = .next (s.after 1 [.wrN [r, v]] .ok 0)) ∧
    (s.Ready → s.answer 0 = .faults →
      exec (.write8 r v) s = .next (s.after 1 [.wrNFault [r, v]] .transport 0)) ∧
    RefusedOutsideValid (.write8 r v) s

/-! ### The configuration commands -/

/-- R158, R159: SET_MODE m writes the prior byte of 0x74 with bits 1:0 replaced; another operand than
0 and 1 is refused before any primitive. -/
def Obligations.SetModePacksTheMode : Prop :=
  ∀ (s : State) (m : Byte),
    encode (.setMode m) = 0x20#8 ++ m ++ 0x00#8 ∧
    (s.Ready → m.toNat ≤ 1 → s.Returning 3 → exec (.setMode m) s =
      .next (s.after 3 [.wrB 0x74, .rdB (s.byte 1), .wrN [0x74, (s.byte 1 &&& 0xFC) ||| m]] .ok 0)) ∧
    (s.Ready → 1 < m.toNat →
      exec (.setMode m) s = .next (s.after 0 [] .illegalOperand (m.setWidth 32))) ∧
    (s.Ready → m.toNat ≤ 1 → FaultsStop (.setMode m) s
      [.writeByte 0x74, .readByte, .writeBytes [0x74, (s.byte 1 &&& 0xFC) ||| m]]) ∧
    RefusedOutsideValid (.setMode m) s

/-- R161, R162, R163: SET_OSRS_T lvl writes the prior byte of 0x74 with bits 7:5 replaced by
min(lvl, 5); no operand is refused. -/
def Obligations.SetOsrsTPacksTheClampedLevel : Prop :=
  ∀ (s : State) (lvl new : Byte),
    new = (s.byte 1 &&& 0x1F) ||| (BitVec.ofNat 8 (min lvl.toNat 5) <<< 5) →
    encode (.setOsrsT lvl) = 0x21#8 ++ lvl ++ 0x00#8 ∧
    (s.Ready → s.Returning 3 → exec (.setOsrsT lvl) s =
      .next (s.after 3 [.wrB 0x74, .rdB (s.byte 1), .wrN [0x74, new]] .ok 0)) ∧
    (s.Ready → FaultsStop (.setOsrsT lvl) s
      [.writeByte 0x74, .readByte, .writeBytes [0x74, new]]) ∧
    RefusedOutsideValid (.setOsrsT lvl) s

/-- R164, R165, R163: SET_OSRS_P lvl writes the prior byte of 0x74 with bits 4:2 replaced by
min(lvl, 5); no operand is refused. -/
def Obligations.SetOsrsPPacksTheClampedLevel : Prop :=
  ∀ (s : State) (lvl new : Byte),
    new = (s.byte 1 &&& 0xE3) ||| (BitVec.ofNat 8 (min lvl.toNat 5) <<< 2) →
    encode (.setOsrsP lvl) = 0x22#8 ++ lvl ++ 0x00#8 ∧
    (s.Ready → s.Returning 3 → exec (.setOsrsP lvl) s =
      .next (s.after 3 [.wrB 0x74, .rdB (s.byte 1), .wrN [0x74, new]] .ok 0)) ∧
    (s.Ready → FaultsStop (.setOsrsP lvl) s
      [.writeByte 0x74, .readByte, .writeBytes [0x74, new]]) ∧
    RefusedOutsideValid (.setOsrsP lvl) s

/-- R166, R163: SET_OSRS_H lvl writes the prior byte of 0x72 with bits 2:0 replaced by min(lvl, 5);
no operand is refused. -/
def Obligations.SetOsrsHPacksTheClampedLevel : Prop :=
  ∀ (s : State) (lvl new : Byte),
    new = (s.byte 1 &&& 0xF8) ||| BitVec.ofNat 8 (min lvl.toNat 5) →
    encode (.setOsrsH lvl) = 0x23#8 ++ lvl ++ 0x00#8 ∧
    (s.Ready → s.Returning 3 → exec (.setOsrsH lvl) s =
      .next (s.after 3 [.wrB 0x72, .rdB (s.byte 1), .wrN [0x72, new]] .ok 0)) ∧
    (s.Ready → FaultsStop (.setOsrsH lvl) s
      [.writeByte 0x72, .readByte, .writeBytes [0x72, new]]) ∧
    RefusedOutsideValid (.setOsrsH lvl) s

/-- R101, R168, R169, R170: SOFT_RESET is the one frame [0xE0, 0xB6], the same as WRITE8's, and
changes no block state. -/
def Obligations.SoftResetWritesTheResetFrame : Prop :=
  encode .softReset = 0x240000 ∧
  ∀ s : State,
    (s.Ready → s.Returning 1 →
      exec .softReset s = .next (s.after 1 [.wrN [0xE0, 0xB6]] .ok 0)) ∧
    (s.Ready → s.answer 0 = .faults →
      exec .softReset s = .next (s.after 1 [.wrNFault [0xE0, 0xB6]] .transport 0)) ∧
    exec .softReset s = exec (.write8 0xE0 0xB6) s ∧
    RefusedOutsideValid .softReset s

/-- R178, R179: GET_MODE answers the raw 2-bit value of bits 1:0 of 0x74, whatever it is. -/
def Obligations.GetModeReadsTheRawMode : Prop :=
  encode .getMode = 0x250000 ∧
  ∀ s : State,
    (s.Ready → s.Returning 2 → exec .getMode s =
      .next (s.after 2 [.wrB 0x74, .rdB (s.byte 1)] .ok ((s.byte 1 &&& 0x03).setWidth 32))) ∧
    (s.Ready → FaultsStop .getMode s [.writeByte 0x74, .readByte]) ∧
    RefusedOutsideValid .getMode s

/-- R174, R175: HAS_NEW_DATA answers bit 7 of 0x1D, and depends on that bit alone. -/
def Obligations.HasNewDataIsolatesBitSeven : Prop :=
  encode .hasNewData = 0x260000 ∧
  ∀ s : State,
    (s.Ready → s.Returning 2 → exec .hasNewData s =
      .next (s.after 2 [.wrB 0x1D, .rdB (s.byte 1)] .ok (if (s.byte 1).getLsbD 7 then 1 else 0))) ∧
    (s.Ready → FaultsStop .hasNewData s [.writeByte 0x1D, .readByte]) ∧
    RefusedOutsideValid .hasNewData s

/-! ### Measurement and calibration read-out -/

/-- R182, R183: READ_ADC_T reads MSB, LSB, XLSB, each on its own, and answers
(MSB << 12) + (LSB << 4) + (XLSB >> 4). -/
def Obligations.ReadAdcTAssemblesTwentyBits : Prop :=
  encode .readAdcT = 0x300000 ∧
  ∀ s : State,
    (s.Ready → s.Returning 6 → ∃ v : Value,
      v.toNat = ((s.byte 1).toNat <<< 12) + ((s.byte 3).toNat <<< 4) + ((s.byte 5).toNat >>> 4) ∧
      exec .readAdcT s = .next (s.after 6
        [.wrB s.params.regTMsb, .rdB (s.byte 1), .wrB s.params.regTLsb, .rdB (s.byte 3),
         .wrB s.params.regTXlsb, .rdB (s.byte 5)] .ok v)) ∧
    (s.Ready → FaultsStop .readAdcT s
      [.writeByte s.params.regTMsb, .readByte, .writeByte s.params.regTLsb, .readByte,
       .writeByte s.params.regTXlsb, .readByte]) ∧
    RefusedOutsideValid .readAdcT s

/-- R184, R183: READ_ADC_P, the same from the pressure registers. -/
def Obligations.ReadAdcPAssemblesTwentyBits : Prop :=
  encode .readAdcP = 0x310000 ∧
  ∀ s : State,
    (s.Ready → s.Returning 6 → ∃ v : Value,
      v.toNat = ((s.byte 1).toNat <<< 12) + ((s.byte 3).toNat <<< 4) + ((s.byte 5).toNat >>> 4) ∧
      exec .readAdcP s = .next (s.after 6
        [.wrB s.params.regPMsb, .rdB (s.byte 1), .wrB s.params.regPLsb, .rdB (s.byte 3),
         .wrB s.params.regPXlsb, .rdB (s.byte 5)] .ok v)) ∧
    (s.Ready → FaultsStop .readAdcP s
      [.writeByte s.params.regPMsb, .readByte, .writeByte s.params.regPLsb, .readByte,
       .writeByte s.params.regPXlsb, .readByte]) ∧
    RefusedOutsideValid .readAdcP s

/-- R185, R183: READ_ADC_H reads MSB and LSB and answers (MSB << 8) + LSB. -/
def Obligations.ReadAdcHAssemblesSixteenBits : Prop :=
  encode .readAdcH = 0x320000 ∧
  ∀ s : State,
    (s.Ready → s.Returning 4 → ∃ v : Value,
      v.toNat = ((s.byte 1).toNat <<< 8) + (s.byte 3).toNat ∧
      exec .readAdcH s = .next (s.after 4
        [.wrB s.params.regHMsb, .rdB (s.byte 1), .wrB s.params.regHLsb, .rdB (s.byte 3)] .ok v)) ∧
    (s.Ready → FaultsStop .readAdcH s
      [.writeByte s.params.regHMsb, .readByte, .writeByte s.params.regHLsb, .readByte]) ∧
    RefusedOutsideValid .readAdcH s

/-- R192, R193, R194: READ_CAL i answers the raw bits of constant i, never more than its width holds,
with an empty trace in every case. -/
def Obligations.ReadCalAnswersRawBits : Prop :=
  ∀ (s : State) (i : Byte),
    encode (.readCal i) = 0x40#8 ++ i ++ 0x00#8 ∧
    (∀ (store : CalStore) (hi : i.toNat < 20), s.block.lifecycle = .valid →
      s.block.cal = some store → ∃ v : Value,
        (∀ b, store[i.toNat] = .bits8 b → v = b.setWidth 32 ∧ v.toNat ≤ 0xFF) ∧
        (∀ b, store[i.toNat] = .bits12 b → v = b.setWidth 32 ∧ v.toNat ≤ 0xFFF) ∧
        (∀ b, store[i.toNat] = .bits16 b → v = b.setWidth 32 ∧ v.toNat ≤ 0xFFFF) ∧
        exec (.readCal i) s = .next (s.after 0 [] .ok v)) ∧
    (s.block.lifecycle = .valid → 19 < i.toNat →
      exec (.readCal i) s = .next (s.after 0 [] .illegalOperand (i.setWidth 32))) ∧
    (∀ t, exec (.readCal i) s = .next t → t.trace = s.trace) ∧
    RefusedOutsideValid (.readCal i) s

/-! ### Whole-machine rules -/

/-- R196: every command that ends delivers exactly one response. -/
def Obligations.OneResponsePerCommand : Prop :=
  ∀ (i : Instr) (s t : State), exec i s = .next t → ∃ r, t.responses = s.responses ++ [r]

/-- R200, the frame of every command but INIT and DISPOSE, in every lifecycle state and whatever the
response: the block state, the parameters and the host's inputs stay. -/
def Obligations.CommandsKeepBlockState : Prop :=
  ∀ (i : Instr) (s t : State), i ≠ .init → i ≠ .dispose → exec i s = .next t →
    t.block = s.block ∧ t.params = s.params ∧ t.hostTp = s.hostTp ∧ t.inputs = s.inputs

/-- R102, R199, R209: on a VALID block a fault of any frame of a command ends it with (TRANSPORT, 0)
after exactly the frames before it, and the lifecycle stays VALID. -/
def Obligations.TransportFaultStopsTheCommand : Prop :=
  ∀ (i : Instr) (s : State), s.Ready → i ≠ .init → i ≠ .dispose → i.wellFormed = true →
    FaultsStop i s (frames s i) ∧
    ∀ (k : Nat) (t : State), k < (frames s i).length → s.Returning k → s.answer k = .faults →
      exec i s = .next t → t.block.lifecycle = .valid

/-- R240: on a primitive that never returns the block has no step, whichever of the six primitives it
is: a write or read primitive of a command of a VALID block or of INIT, INIT's address query, the
release of DISPOSE and the release of an INIT that fails by its address, by the chip's identity or by
a transport fault. That the stuck block is a named fault (log entry 18) and that a handle says whether
its own two calls return (log entry 10) are the model's choices. -/
def Obligations.SilentPrimitiveLeavesBlockStuck : Prop :=
  (∀ (i : Instr) (s : State) (k : Nat), s.Ready → i ≠ .init → i ≠ .dispose →
    i.wellFormed = true → k < (frames s i).length → s.Returning k → s.answer k = .never →
    exec i s = .fault .primitiveNeverReturns) ∧
  (∀ (s : State) (h : TransportHandle), s.block.tp = some h → h.releaseReturns = false →
    exec .dispose s = .fault .primitiveNeverReturns) ∧
  (∀ (s : State) (h : TransportHandle), s.block.lifecycle = .uninit → s.hostTp = some h →
    (h.addressReturns = false → exec .init s = .fault .primitiveNeverReturns) ∧
    (∀ k, 0x76 ≤ h.address.toNat → h.address.toNat ≤ 0x77 → k < (framesInit s.params).length →
      s.Returning k → s.answer k = .never → (2 ≤ k → s.byte 1 = 0x61) →
      exec .init s = .fault .primitiveNeverReturns) ∧
    (h.releaseReturns = false →
      (¬(0x76 ≤ h.address.toNat ∧ h.address.toNat ≤ 0x77) →
        exec .init s = .fault .primitiveNeverReturns) ∧
      (0x76 ≤ h.address.toNat → h.address.toNat ≤ 0x77 → s.Returning 2 → s.byte 1 ≠ 0x61 →
        exec .init s = .fault .primitiveNeverReturns) ∧
      (∀ k, 0x76 ≤ h.address.toNat → h.address.toNat ≤ 0x77 → k < (framesInit s.params).length →
        s.Returning k → s.answer k = .faults → (2 ≤ k → s.byte 1 = 0x61) →
        exec .init s = .fault .primitiveNeverReturns)))

/-- R239, which the spec marks as its own inference: the bound on the events of each command, 48 for
INIT with the default map (log entry 7). -/
def Obligations.BoundedWorkPerCommand : Prop :=
  (∀ (i : Instr) (s t : State), exec i s = .next t →
    ∃ evs, t.trace = s.trace ++ evs ∧ evs.length ≤ callBound s.params i) ∧
  callBound Config.defaultParams .init = 48

/-- R65, R199: no transfer event follows a fault in its command; what may follow is INIT's `Rel`, and
no other command's. -/
def Obligations.NothingFollowsAFault : Prop :=
  ∀ (i : Instr) (s t : State), exec i s = .next t →
    ∃ evs, t.trace = s.trace ++ evs ∧ faultEndsTrace evs = true ∧
      (i ≠ .init → i ≠ .dispose → Event.rel ∉ evs)

/-- R50, R98, R100: every read of a command stands right after a register select of the same command,
so that no command relies on a register pointer an earlier one left. -/
def Obligations.EveryReadFollowsASelect : Prop :=
  ∀ (i : Instr) (s t : State), exec i s = .next t →
    ∃ evs, t.trace = s.trace ++ evs ∧ readsFollowSelects false evs = true

/-- R70, in a sentence the spec marks as its own inference: two runs of a command from the same
block state that see the same answers have the same trace, the same response and the same state
after, whatever was recorded or queued before. -/
def Obligations.SameAnswersSameObservation : Prop :=
  ∀ (i : Instr) (s s' t : State), s.block = s'.block → s.params = s'.params →
    s.hostTp = s'.hostTp → (∀ k, s.answer k = s'.answer k) → exec i s = .next t →
    ∃ t' evs r, exec i s' = .next t' ∧ t.trace = s.trace ++ evs ∧ t'.trace = s'.trace ++ evs ∧
      t.responses = s.responses ++ [r] ∧ t'.responses = s'.responses ++ [r] ∧ t.block = t'.block

/-! ### The field packer and the assembly of values -/

/-- R151 with R11: the byte RMW writes is the formula on unbounded naturals, for every descriptor. -/
def Obligations.PackedByteIsTheFormula : Prop :=
  ∀ (fd : FieldDesc) (p v : Byte),
    (fd.pack p v).toNat =
      (p.toNat &&& (0xFF ^^^ fd.mask.toNat)) ||| ((v.toNat <<< fd.shift) &&& fd.mask.toNat)

/-- R152, which the spec marks as its own inference: for a value that fits the field, the written
byte is (p & ~mask) | (v << shift): outside the mask it is the prior byte, inside it holds the
value. That (v << shift) & ~mask is 0 is said on unbounded naturals (R11): no bit below 8 outside
the mask, and none at 8 or above. -/
def Obligations.FieldIsolation : Prop :=
  ∀ (fd : FieldDesc) (p v : Byte),
    (v.toNat <<< fd.shift) &&& (0xFF ^^^ fd.mask.toNat) = 0 → v.toNat <<< fd.shift < 256 →
    fd.pack p v = (p &&& ~~~fd.mask) ||| (v <<< fd.shift) ∧
    fd.pack p v &&& ~~~fd.mask = p &&& ~~~fd.mask ∧
    fd.pack p v &&& fd.mask = v <<< fd.shift

/-- R155, which the spec marks as its own inference: extraction undoes packing for every value that
fits the field. -/
def Obligations.ExtractionUndoesPacking : Prop :=
  ∀ (fd : FieldDesc) (p v : Byte),
    (v.toNat <<< fd.shift) &&& (0xFF ^^^ fd.mask.toNat) = 0 → v.toNat <<< fd.shift < 256 →
    fd.get (fd.pack p v) = v

/-- R163: every oversampling field the block writes holds min(lvl, 5), so at most 5. -/
def Obligations.WrittenLevelIsClamped : Prop :=
  ∀ (fd : FieldDesc) (p lvl : Byte), fd ∈ [fdOsrsT, fdOsrsP, fdOsrsH] →
    (fd.get (fd.pack p (clampLevel lvl))).toNat = min lvl.toNat 5 ∧
    (lvl.toNat ≤ 5 → fd.pack p (clampLevel lvl) = (p &&& ~~~fd.mask) ||| (lvl <<< fd.shift))

/-- R186, which the spec marks as its own inference: the terms of the assemblies do not overlap: the
results are the concatenations, unsigned and within their widths. -/
def Obligations.AssembliesAreConcatenations : Prop :=
  ∀ a b x : Byte,
    (adcThreeBytes a b x = (a ++ b ++ x.extractLsb' 4 4 : BitVec 20).setWidth 32 ∧
      (adcThreeBytes a b x).toNat ≤ 0xFFFFF) ∧
    (adcTwoBytes a b = (a ++ b : BitVec 16).setWidth 32 ∧ (adcTwoBytes a b).toNat ≤ 0xFFFF) ∧
    nibbleLow a x = a ++ x.extractLsb' 0 4 ∧ nibbleHigh a x = a ++ x.extractLsb' 4 4

/-- R39: the host's signed view of a constant: sign-extended from its width where `CAL_SIGNED` says
so, zero-extended elsewhere. -/
def Obligations.SignedViewExtendsByCalSigned : Prop :=
  ∀ (p : Config.Params) (store : CalStore) (i : Fin 20),
    (∀ b, store[i] = .bits8 b →
      signedView p store i = if p.calSigned[i] then b.signExtend 32 else b.setWidth 32) ∧
    (∀ b, store[i] = .bits12 b →
      signedView p store i = if p.calSigned[i] then b.signExtend 32 else b.setWidth 32) ∧
    (∀ b, store[i] = .bits16 b →
      signedView p store i = if p.calSigned[i] then b.signExtend 32 else b.setWidth 32)

/-- R180, which the spec marks as its own inference: on the reference device (D28), any list of
field writes leaves 0x74 holding the last level or mode of each kind once each kind has been issued,
changes 0x72 in bits 2:0 only and nothing else, and SET_OSRS_H never touches 0x74. That the device is
a judge of traces beside the machine is the model's choice (log entry 14). -/
def Obligations.FieldIndependenceOnReferenceDevice : Prop :=
  ∀ (is : List Instr) (s t : State) (d d' : RefDevice) (evs : List Event),
    s.Ready → (∀ i ∈ is, isFieldWrite i = true) → d.image.wf = true → execAll is s = .next t →
    t.trace = s.trace ++ evs → RefDevice.accepts evs d = some d' →
    (∀ lt lp m : Byte, is.foldl LastSet.note ⟨none, none, none⟩ = ⟨some lt, some lp, some m⟩ →
      d'.image.read 0x74 = (lt <<< 5) ||| (lp <<< 2) ||| m) ∧
    d'.image.read 0x72 &&& 0xF8 = d.image.read 0x72 &&& 0xF8 ∧
    (∀ a : Byte, a ≠ 0x72 → a ≠ 0x74 → d'.image.read a = d.image.read a) ∧
    ((∀ i ∈ is, ∃ lvl, i = .setOsrsH lvl) → d'.image.read 0x74 = d.image.read 0x74)
end

