-- ==== Sys2Proof/Laws/State.lean ====
section
/-! SUPPORT. One lemma for each field and each update of the state, true by rfl, so that no proof
unfolds a record update. -/

namespace Sys2Proof.Machine

variable (s : State) (b : BlockState) (e : Event) (n k : Nat) (evs : List Event) (st : Status)
  (v : Value)

@[simp] theorem withBlock_block : (s.withBlock b).block = b := rfl
@[simp] theorem withBlock_params : (s.withBlock b).params = s.params := rfl
@[simp] theorem withBlock_hostTp : (s.withBlock b).hostTp = s.hostTp := rfl
@[simp] theorem withBlock_inputs : (s.withBlock b).inputs = s.inputs := rfl
@[simp] theorem withBlock_answers : (s.withBlock b).answers = s.answers := rfl
@[simp] theorem withBlock_drawn : (s.withBlock b).drawn = s.drawn := rfl
@[simp] theorem withBlock_trace : (s.withBlock b).trace = s.trace := rfl
@[simp] theorem withBlock_responses : (s.withBlock b).responses = s.responses := rfl
@[simp] theorem withBlock_answer : (s.withBlock b).answer k = s.answer k := rfl
@[simp] theorem withBlock_byte : (s.withBlock b).byte k = s.byte k := rfl
@[simp] theorem withBlock_byte2 : (s.withBlock b).byte2 k = s.byte2 k := rfl

@[simp] theorem record_block : (s.record e).block = s.block := rfl
@[simp] theorem record_params : (s.record e).params = s.params := rfl
@[simp] theorem record_hostTp : (s.record e).hostTp = s.hostTp := rfl
@[simp] theorem record_inputs : (s.record e).inputs = s.inputs := rfl
@[simp] theorem record_answers : (s.record e).answers = s.answers := rfl
@[simp] theorem record_drawn : (s.record e).drawn = s.drawn := rfl
@[simp] theorem record_trace : (s.record e).trace = s.trace ++ [e] := rfl
@[simp] theorem record_responses : (s.record e).responses = s.responses := rfl
@[simp] theorem record_answer : (s.record e).answer k = s.answer k := rfl
@[simp] theorem record_byte : (s.record e).byte k = s.byte k := rfl
@[simp] theorem record_byte2 : (s.record e).byte2 k = s.byte2 k := rfl

@[simp] theorem consume_block : (s.consume n).block = s.block := rfl
@[simp] theorem consume_params : (s.consume n).params = s.params := rfl
@[simp] theorem consume_hostTp : (s.consume n).hostTp = s.hostTp := rfl
@[simp] theorem consume_inputs : (s.consume n).inputs = s.inputs := rfl
@[simp] theorem consume_answers : (s.consume n).answers = s.answers.drop n := rfl
@[simp] theorem consume_drawn : (s.consume n).drawn = s.drawn + n := rfl
@[simp] theorem consume_trace : (s.consume n).trace = s.trace := rfl
@[simp] theorem consume_responses : (s.consume n).responses = s.responses := rfl

/-- The answers to come after `n` are taken are the same ones, `n` places on. -/
@[simp] theorem consume_answer : (s.consume n).answer k = s.answer (n + k) := by
  simp [State.answer, State.consume, Nat.add_assoc]

@[simp] theorem consume_byte : (s.consume n).byte k = s.byte (n + k) := by
  simp [State.byte]

@[simp] theorem consume_byte2 : (s.consume n).byte2 k = s.byte2 (n + k) := by
  simp [State.byte2]

@[simp] theorem respond_block : (respond st v s).block = s.block := rfl
@[simp] theorem respond_params : (respond st v s).params = s.params := rfl
@[simp] theorem respond_hostTp : (respond st v s).hostTp = s.hostTp := rfl
@[simp] theorem respond_inputs : (respond st v s).inputs = s.inputs := rfl
@[simp] theorem respond_answers : (respond st v s).answers = s.answers := rfl
@[simp] theorem respond_drawn : (respond st v s).drawn = s.drawn := rfl
@[simp] theorem respond_trace : (respond st v s).trace = s.trace := rfl
@[simp] theorem respond_responses : (respond st v s).responses = s.responses ++ [⟨st, v⟩] := rfl
@[simp] theorem respond_answer : (respond st v s).answer k = s.answer k := rfl

@[simp] theorem after_block : (s.after n evs st v).block = s.block := rfl
@[simp] theorem after_params : (s.after n evs st v).params = s.params := rfl
@[simp] theorem after_hostTp : (s.after n evs st v).hostTp = s.hostTp := rfl
@[simp] theorem after_inputs : (s.after n evs st v).inputs = s.inputs := rfl
@[simp] theorem after_answers : (s.after n evs st v).answers = s.answers.drop n := rfl
@[simp] theorem after_drawn : (s.after n evs st v).drawn = s.drawn + n := rfl
@[simp] theorem after_trace : (s.after n evs st v).trace = s.trace ++ evs := rfl
@[simp] theorem after_responses : (s.after n evs st v).responses = s.responses ++ [⟨st, v⟩] := rfl

/-- A response with nothing recorded and no answer taken. -/
theorem respond_eq_after : respond st v s = s.after 0 [] st v := by
  simp [respond, State.after]

/-- An answer that returns gives its two bytes. -/
theorem byte_of_returns {b0 b1 : Byte} (h : s.answer k = .returns b0 b1) : s.byte k = b0 := by
  simp [State.byte, h]

theorem byte2_of_returns {b0 b1 : Byte} (h : s.answer k = .returns b0 b1) : s.byte2 k = b1 := by
  simp [State.byte2, h]

/-- An answer is a return, a fault or silence. -/
theorem answer_cases : (s.answer k = .returns (s.byte k) (s.byte2 k)) ∨ s.answer k = .faults ∨
    s.answer k = .never := by
  cases h : s.answer k <;> simp [State.byte, State.byte2, h]

theorem returning_zero : s.Returning 0 := fun _ h => absurd h (Nat.not_lt_zero _)

/-- The next `n + 1` primitives complete when the next one does and then `n` more do. -/
theorem returning_succ_iff : s.Returning (n + 1) ↔
    (∃ b0 b1, s.answer 0 = .returns b0 b1) ∧ (s.consume 1).Returning n := by
  constructor
  · intro h
    refine ⟨h 0 (by omega), fun k hk => ?_⟩
    simpa [Nat.add_comm] using h (k + 1) (by omega)
  · rintro ⟨h0, h⟩ k hk
    cases k with
    | zero => exact h0
    | succ k => simpa [Nat.add_comm] using h k (by omega)

end Sys2Proof.Machine
end

