-- ==== Sys2Proof/Laws/Calls.lean ====
section
/-! SUPPORT. Everything the shared operations can do, said once. `runCalls` makes a list of primitive
calls one after the other; every operation of the block that uses the transport is such a list, with
a result read off the answers (`read8_eq_calls` and its companions), and `runCalls_returning`,
`runCalls_faults` and `runCalls_never` say what becomes of a list of calls. -/

namespace Sys2Proof.Machine

/-! ### Sequencing -/

@[simp] theorem andThen_done {α β : Type} (a : α) (s : State) (k : α → State → Ran β) :
    (Ran.done a s).andThen k = k a s := rfl
@[simp] theorem andThen_raised {α β : Type} (e : Status) (v : Value) (s : State)
    (k : α → State → Ran β) : (Ran.raised e v s : Ran α).andThen k = .raised e v s := rfl
@[simp] theorem andThen_stopped {α β : Type} (f : Fault) (k : α → State → Ran β) :
    (Ran.stopped f : Ran α).andThen k = .stopped f := rfl
@[simp] theorem map_done {α β : Type} (a : α) (s : State) (f : α → β) :
    (Ran.done a s).map f = .done (f a) s := rfl
@[simp] theorem map_raised {α β : Type} (e : Status) (v : Value) (s : State) (f : α → β) :
    (Ran.raised e v s : Ran α).map f = .raised e v s := rfl
@[simp] theorem map_stopped {α β : Type} (r : Fault) (f : α → β) :
    (Ran.stopped r : Ran α).map f = .stopped r := rfl

@[simp] theorem map_map {α β γ : Type} (x : Ran α) (f : α → β) (g : β → γ) :
    (x.map f).map g = x.map fun a => g (f a) := by cases x <;> rfl

@[simp] theorem map_andThen {α β γ : Type} (x : Ran α) (f : α → β) (k : β → State → Ran γ) :
    (x.map f).andThen k = x.andThen fun a s => k (f a) s := by cases x <;> rfl

@[simp] theorem andThen_map {α β γ : Type} (x : Ran α) (k : α → State → Ran β) (f : β → γ) :
    (x.andThen k).map f = x.andThen fun a s => (k a s).map f := by cases x <;> rfl

@[simp] theorem deliver_done (v : Value) (s : State) :
    (Ran.done v s).deliver = .next (respond .ok v s) := rfl
@[simp] theorem deliver_raised (e : Status) (v : Value) (s : State) :
    (Ran.raised e v s).deliver = .next (respond e v s) := rfl
@[simp] theorem deliver_stopped (f : Fault) : (Ran.stopped f).deliver = .fault f := rfl

/-! ### One transport primitive -/

section Transfer
variable {c : BusCall} {s : State}

theorem transfer_returns {b0 b1 : Byte} (hold : s.block.tp.isSome = true)
    (h : s.answer 0 = .returns b0 b1) :
    transfer c s = .done (b0, b1) ((s.consume 1).record (c.okEvent b0 b1)) := by
  obtain ⟨d, hd⟩ := Option.isSome_iff_exists.mp hold
  simp [transfer, hd, h]

theorem transfer_faults (hold : s.block.tp.isSome = true) (h : s.answer 0 = .faults) :
    transfer c s = .raised .transport 0 ((s.consume 1).record c.faultEvent) := by
  obtain ⟨d, hd⟩ := Option.isSome_iff_exists.mp hold
  simp [transfer, hd, h]

theorem transfer_never (hold : s.block.tp.isSome = true) (h : s.answer 0 = .never) :
    transfer c s = .stopped .primitiveNeverReturns := by
  obtain ⟨d, hd⟩ := Option.isSome_iff_exists.mp hold
  simp [transfer, hd, h]

theorem transfer_noHandle (h : s.block.tp = none) : transfer c s = .stopped .noTransportHeld := by
  simp [transfer, h]

/-- Everything one transfer can do. -/
theorem transfer_cases (c : BusCall) (s : State) :
    (s.block.tp = none ∧ transfer c s = .stopped .noTransportHeld) ∨
    (s.block.tp.isSome = true ∧ s.answer 0 = .returns (s.byte 0) (s.byte2 0) ∧
      transfer c s = .done (s.byte 0, s.byte2 0)
        ((s.consume 1).record (c.okEvent (s.byte 0) (s.byte2 0)))) ∨
    (s.block.tp.isSome = true ∧ s.answer 0 = .faults ∧
      transfer c s = .raised .transport 0 ((s.consume 1).record c.faultEvent)) ∨
    (s.block.tp.isSome = true ∧ s.answer 0 = .never ∧
      transfer c s = .stopped .primitiveNeverReturns) := by
  cases htp : s.block.tp with
  | none => exact .inl ⟨rfl, transfer_noHandle htp⟩
  | some d =>
    have hold : s.block.tp.isSome = true := by simp [htp]
    rcases answer_cases s 0 with h | h | h
    · exact .inr (.inl ⟨rfl, h, transfer_returns hold h⟩)
    · exact .inr (.inr (.inl ⟨rfl, h, transfer_faults hold h⟩))
    · exact .inr (.inr (.inr ⟨rfl, h, transfer_never hold h⟩))

end Transfer

/-! ### A list of calls -/

/-- The calls made one after the other, their results dropped. -/
def runCalls : List BusCall → State → Ran Unit
  | [], s => .done () s
  | c :: cs, s => (transfer c s).andThen fun _ t => runCalls cs t

@[simp] theorem runCalls_nil (s : State) : runCalls [] s = .done () s := rfl

theorem runCalls_cons (c : BusCall) (cs : List BusCall) (s : State) :
    runCalls (c :: cs) s = (transfer c s).andThen fun _ t => runCalls cs t := rfl

theorem runCalls_append (cs ds : List BusCall) (s : State) :
    runCalls (cs ++ ds) s = (runCalls cs s).andThen fun _ t => runCalls ds t := by
  induction cs generalizing s with
  | nil => rfl
  | cons c cs ih =>
    simp only [List.cons_append, runCalls_cons]
    cases transfer c s <;> simp [ih]

/-- What stays and what moves on when a list of calls completes. -/
structure CallsDone (cs : List BusCall) (s t : State) : Prop where
  block : t.block = s.block
  params : t.params = s.params
  hostTp : t.hostTp = s.hostTp
  answer : ∀ k, t.answer k = s.answer (cs.length + k)
  returned : s.Returning cs.length
  held : cs ≠ [] → s.block.tp.isSome = true

theorem CallsDone.byte {cs : List BusCall} {s t : State} (h : CallsDone cs s t) (k : Nat) :
    t.byte k = s.byte (cs.length + k) := by simp [State.byte, h.answer]

theorem CallsDone.byte2 {cs : List BusCall} {s t : State} (h : CallsDone cs s t) (k : Nat) :
    t.byte2 k = s.byte2 (cs.length + k) := by simp [State.byte2, h.answer]

theorem runCalls_done {cs : List BusCall} {s t : State} (h : runCalls cs s = .done () t) :
    CallsDone cs s t := by
  induction cs generalizing s with
  | nil =>
    simp only [runCalls_nil, Ran.done.injEq, true_and] at h
    subst h
    exact ⟨rfl, rfl, rfl, fun k => by simp, returning_zero s, fun h => absurd rfl h⟩
  | cons c cs ih =>
    rw [runCalls_cons] at h
    rcases transfer_cases c s with ⟨_, ht⟩ | ⟨hold, hr, ht⟩ | ⟨_, _, ht⟩ | ⟨_, _, ht⟩
    · simp [ht] at h
    · rw [ht, andThen_done] at h
      have d := ih h
      refine ⟨d.block, d.params, d.hostTp, fun k => ?_, ?_, fun _ => hold⟩
      · rw [d.answer, record_answer, consume_answer, List.length_cons]
        congr 1
        omega
      · rw [List.length_cons, returning_succ_iff]
        exact ⟨⟨_, _, hr⟩, d.returned⟩
    · simp [ht] at h
    · simp [ht] at h

/-- The state after `n` answers are taken and `evs` recorded. -/
def State.moved (s : State) (n : Nat) (evs : List Event) : State :=
  { s with answers := s.answers.drop n, drawn := s.drawn + n, trace := s.trace ++ evs }

@[simp] theorem moved_block (s : State) (n : Nat) (evs : List Event) :
    (s.moved n evs).block = s.block := rfl
@[simp] theorem moved_params (s : State) (n : Nat) (evs : List Event) :
    (s.moved n evs).params = s.params := rfl
@[simp] theorem moved_hostTp (s : State) (n : Nat) (evs : List Event) :
    (s.moved n evs).hostTp = s.hostTp := rfl
@[simp] theorem moved_trace (s : State) (n : Nat) (evs : List Event) :
    (s.moved n evs).trace = s.trace ++ evs := rfl

theorem respond_moved (st : Status) (v : Value) (s : State) (n : Nat) (evs : List Event) :
    respond st v (s.moved n evs) = s.after n evs st v := rfl

theorem record_moved (s : State) (n : Nat) (evs : List Event) (e : Event) :
    (s.moved n evs).record e = s.moved n (evs ++ [e]) := by
  simp [State.record, State.moved]

theorem moved_moved (s : State) (m n : Nat) (evs fvs : List Event) :
    (s.moved m evs).moved n fvs = s.moved (m + n) (evs ++ fvs) := by
  simp [State.moved, Nat.add_assoc]

theorem moved_zero (s : State) : s.moved 0 [] = s := by simp [State.moved]

theorem consume_record_eq_moved (s : State) (n : Nat) (e : Event) :
    (s.consume n).record e = s.moved n [e] := rfl

theorem okEventsFrom_moved (s : State) (n j : Nat) (evs : List Event) (cs : List BusCall) :
    okEventsFrom (s.moved n evs) j cs = okEventsFrom s (n + j) cs := by
  induction cs generalizing j with
  | nil => rfl
  | cons c cs ih =>
    simp only [okEventsFrom, ih, Nat.add_assoc]
    congr 1
    congr 1
    · exact consume_byte s n j
    · exact consume_byte2 s n j

/-- When every call completes, their events are recorded and their answers taken. -/
theorem runCalls_returning {cs : List BusCall} {s : State} (hold : s.block.tp.isSome = true)
    (h : s.Returning cs.length) :
    runCalls cs s = .done () (s.moved cs.length (okEventsFrom s 0 cs)) := by
  induction cs generalizing s with
  | nil => simp [okEventsFrom, moved_zero]
  | cons c cs ih =>
    rw [List.length_cons, returning_succ_iff] at h
    obtain ⟨⟨b0, b1, h0⟩, h1⟩ := h
    rw [runCalls_cons, transfer_returns hold h0, andThen_done, consume_record_eq_moved,
      ih (s := s.moved 1 [c.okEvent b0 b1]) hold h1, moved_moved, okEventsFrom_moved]
    simp [okEventsFrom, byte_of_returns s 0 h0, byte2_of_returns s 0 h0, Nat.add_comm]

/-- When call `k` is the first to fault, TRANSPORT is raised after its fault event. -/
theorem runCalls_faults {cs : List BusCall} {s : State} {k : Nat} (hold : s.block.tp.isSome = true)
    (hk : k < cs.length) (h : s.Returning k) (hf : s.answer k = .faults) :
    runCalls cs s = .raised .transport 0
      (s.moved (k + 1) (okEventsFrom s 0 (cs.take k) ++ [cs[k].faultEvent])) := by
  induction cs generalizing s k with
  | nil => simp at hk
  | cons c cs ih =>
    cases k with
    | zero =>
      rw [runCalls_cons, transfer_faults hold hf, andThen_raised, consume_record_eq_moved]
      simp [okEventsFrom]
    | succ k =>
      rw [returning_succ_iff] at h
      obtain ⟨⟨b0, b1, h0⟩, h1⟩ := h
      have hf' : (s.moved 1 [c.okEvent b0 b1]).answer k = .faults :=
        (consume_answer s 1 k).trans (by rwa [Nat.add_comm])
      rw [runCalls_cons, transfer_returns hold h0, andThen_done, consume_record_eq_moved,
        ih (s := s.moved 1 [c.okEvent b0 b1]) hold (by simpa using hk) h1 hf', moved_moved,
        okEventsFrom_moved]
      simp [okEventsFrom, byte_of_returns s 0 h0, byte2_of_returns s 0 h0, Nat.add_comm]

/-- When call `k` is the first that does not complete and it never returns, the block is stuck. -/
theorem runCalls_never {cs : List BusCall} {s : State} {k : Nat} (hold : s.block.tp.isSome = true)
    (hk : k < cs.length) (h : s.Returning k) (hn : s.answer k = .never) :
    runCalls cs s = .stopped .primitiveNeverReturns := by
  induction cs generalizing s k with
  | nil => simp at hk
  | cons c cs ih =>
    cases k with
    | zero => rw [runCalls_cons, transfer_never hold hn, andThen_stopped]
    | succ k =>
      rw [returning_succ_iff] at h
      obtain ⟨⟨b0, b1, h0⟩, h1⟩ := h
      have hn' : (s.moved 1 [c.okEvent b0 b1]).answer k = .never :=
        (consume_answer s 1 k).trans (by rwa [Nat.add_comm])
      rw [runCalls_cons, transfer_returns hold h0, andThen_done, consume_record_eq_moved,
        ih (s := s.moved 1 [c.okEvent b0 b1]) hold (by simpa using hk) h1 hn']

/-- The first `n` answers all return, or one of them is the first that does not. -/
theorem returning_or_first (s : State) (n : Nat) : s.Returning n ∨
    ∃ k < n, s.Returning k ∧ (s.answer k = .faults ∨ s.answer k = .never) := by
  induction n with
  | zero => exact .inl (returning_zero s)
  | succ n ih =>
    rcases ih with h | ⟨k, hk, h⟩
    · rcases answer_cases s n with hr | hr | hr
      · refine .inl fun k hk => ?_
        rcases Nat.lt_succ_iff_lt_or_eq.mp hk with hlt | rfl
        · exact h k hlt
        · exact ⟨_, _, hr⟩
      · exact .inr ⟨n, by omega, h, .inl hr⟩
      · exact .inr ⟨n, by omega, h, .inr hr⟩
    · exact .inr ⟨k, by omega, h⟩

/-- Everything a list of calls can do on a held handle. -/
theorem runCalls_cases (cs : List BusCall) (s : State) (hold : s.block.tp.isSome = true) :
    (s.Returning cs.length ∧
      runCalls cs s = .done () (s.moved cs.length (okEventsFrom s 0 cs))) ∨
    (∃ k, ∃ hk : k < cs.length, s.Returning k ∧ s.answer k = .faults ∧
      runCalls cs s = .raised .transport 0
        (s.moved (k + 1) (okEventsFrom s 0 (cs.take k) ++ [cs[k].faultEvent]))) ∨
    (∃ k < cs.length, s.Returning k ∧ s.answer k = .never ∧
      runCalls cs s = .stopped .primitiveNeverReturns) := by
  rcases returning_or_first s cs.length with h | ⟨k, hk, h, hf | hn⟩
  · exact .inl ⟨h, runCalls_returning hold h⟩
  · exact .inr (.inl ⟨k, hk, h, hf, runCalls_faults hold hk h hf⟩)
  · exact .inr (.inr ⟨k, hk, h, hn, runCalls_never hold hk h hn⟩)

/-- Two parts of a body, each a list of calls, are one list of calls. -/
theorem calls_andThen {α β : Type} (cs ds : List BusCall) (s : State) (v : α) (w : β)
    (k : α → State → Ran β)
    (h : ∀ t, CallsDone cs s t → k v t = (runCalls ds t).map fun _ => w) :
    ((runCalls cs s).map fun _ => v).andThen k = (runCalls (cs ++ ds) s).map fun _ => w := by
  rw [runCalls_append]
  cases hr : runCalls cs s with
  | done u t =>
    simp only [map_done, andThen_done]
    exact h t (runCalls_done hr)
  | raised e i t => rfl
  | stopped f => rfl

/-- What follows a part of a body matters only where that part returned. -/
theorem andThen_congr {α β : Type} {x : Ran α} {k k' : α → State → Ran β}
    (h : ∀ a t, x = .done a t → k a t = k' a t) : x.andThen k = x.andThen k' := by
  cases x with
  | done a t => exact h a t rfl
  | raised e v t => rfl
  | stopped f => rfl

/-! ### The operations as lists of calls -/

theorem transfer_eq_calls (c : BusCall) (s : State) :
    transfer c s = (runCalls [c] s).map fun _ => (s.byte 0, s.byte2 0) := by
  rcases transfer_cases c s with ⟨_, h⟩ | ⟨_, _, h⟩ | ⟨_, _, h⟩ | ⟨_, _, h⟩ <;>
    simp [runCalls_cons, h]

theorem busWriteByte_eq_calls (v : Byte) (s : State) :
    busWriteByte v s = runCalls [.writeByte v] s := by
  rw [busWriteByte, transfer_eq_calls, map_map]
  cases runCalls [.writeByte v] s <;> rfl

theorem writeReg_eq_calls (r v : Byte) (s : State) :
    writeReg r v s = runCalls [.writeBytes [r, v]] s := by
  rw [writeReg, busWriteBytes, transfer_eq_calls, map_map]
  cases runCalls [.writeBytes [r, v]] s <;> rfl

theorem map_unit (x : Ran Unit) : (x.map fun _ => ()) = x := by cases x <;> rfl

theorem read8_eq_calls (r : Byte) (s : State) :
    read8 r s = (runCalls (framesRead8 r) s).map fun _ => s.byte 1 := by
  rw [read8, busWriteByte_eq_calls, ← map_unit (runCalls _ _)]
  refine calls_andThen [.writeByte r] [.readByte] s () _ _ fun t ht => ?_
  rw [busReadByte, transfer_eq_calls, map_map, ht.byte]
  rfl

theorem read16_eq_calls (r : Byte) (s : State) :
    read16 r s = (runCalls [.writeByte r, .readTwoBytes] s).map fun _ =>
      littleEndian (s.byte 1) (s.byte2 1) := by
  rw [read16, busWriteByte_eq_calls, ← map_unit (runCalls _ _)]
  refine calls_andThen [.writeByte r] [.readTwoBytes] s () _ _ fun t ht => ?_
  rw [busReadTwoBytes, transfer_eq_calls, map_map, ht.byte, ht.byte2]
  rfl

theorem rmw_eq_calls (fd : FieldDesc) (v : Byte) (s : State) :
    rmw fd v s = runCalls (framesRmw fd v (s.byte 1)) s := by
  rw [rmw, read8_eq_calls, ← map_unit (runCalls (framesRmw fd v (s.byte 1)) s)]
  refine calls_andThen (framesRead8 fd.reg) [.writeBytes [fd.reg, fd.pack (s.byte 1) v]] s _ _ _
    fun t _ => ?_
  rw [writeReg_eq_calls, map_unit]

theorem loadConstant_eq_calls (e : Config.CalEntry) (s : State) :
    loadConstant e s = (runCalls (framesConstant e) s).map fun _ => constantFrom s 0 e := by
  cases e with
  | r16 a => rw [loadConstant, read16_eq_calls, map_map]; rfl
  | r8 a => rw [loadConstant, read8_eq_calls, map_map]; rfl
  | nibLo m b =>
    rw [loadConstant, read8_eq_calls]
    refine calls_andThen (framesRead8 m) (framesRead8 b) s _ _ _ fun t ht => ?_
    rw [read8_eq_calls, map_map, ht.byte]
    rfl
  | nibHi m b =>
    rw [loadConstant, read8_eq_calls]
    refine calls_andThen (framesRead8 m) (framesRead8 b) s _ _ _ fun t ht => ?_
    rw [read8_eq_calls, map_map, ht.byte]
    rfl

/-- A constant loaded after `n` answers are taken is the one read `n` places on. -/
theorem constantFrom_shift {s t : State} {n : Nat} (h : ∀ k, t.answer k = s.answer (n + k))
    (j : Nat) (e : Config.CalEntry) : constantFrom t j e = constantFrom s (n + j) e := by
  cases e <;> simp [constantFrom, State.byte, State.byte2, h, Nat.add_assoc]

theorem framesCalibration_succ (m : Config.CalMap) (n : Nat) (h : n < 20) :
    framesCalibration m (n + 1) = framesCalibration m n ++ framesConstant m[n] := by
  have hl : n < m.toList.length := by simpa using h
  rw [framesCalibration, framesCalibration, List.take_succ_eq_append_getElem hl]
  simp

/-- The loader as one list of calls, each constant read from the answers to its own calls. -/
theorem loadFirst_eq_calls (m : Config.CalMap) (n : Nat) (h : n ≤ 20) (s : State) :
    loadFirst m n h s = (runCalls (framesCalibration m n) s).map fun _ =>
      Vector.ofFn fun i : Fin n => constantFrom s (framesCalibration m i).length m[i] := by
  induction n with
  | zero =>
    have h0 : (#v[] : Vector CalValue 0) = Vector.ofFn fun i : Fin 0 =>
        constantFrom s (framesCalibration m i).length m[i] := Vector.ext fun i hi => by omega
    rw [loadFirst, h0]
    rfl
  | succ n ih =>
    rw [loadFirst, ih (by omega), framesCalibration_succ m n (by omega)]
    refine calls_andThen _ _ s _ _ _ fun t ht => ?_
    rw [loadConstant_eq_calls, map_map, constantFrom_shift ht.answer, Vector.ofFn_succ]
    rfl

theorem loadCalibration_eq_calls (s : State) :
    loadCalibration s = (runCalls (framesCalibration s.params.calMap 20) s).map fun _ =>
      Vector.ofFn fun i : Fin 20 =>
        constantFrom s (framesCalibration s.params.calMap i).length s.params.calMap[i] :=
  loadFirst_eq_calls _ _ _ _

theorem readAdcThree_eq_calls (a b d : Byte) (s : State) :
    readAdcThree a b d s =
      (runCalls (framesRead8 a ++ framesRead8 b ++ framesRead8 d) s).map fun _ =>
        adcThreeBytes (s.byte 1) (s.byte 3) (s.byte 5) := by
  rw [readAdcThree, read8_eq_calls, List.append_assoc]
  refine calls_andThen _ _ s _ _ _ fun t ht => ?_
  rw [read8_eq_calls]
  refine calls_andThen _ _ t _ _ _ fun u hu => ?_
  rw [read8_eq_calls, map_map, hu.byte, ht.byte, ht.byte]
  rfl

theorem readAdcTwo_eq_calls (a b : Byte) (s : State) :
    readAdcTwo a b s = (runCalls (framesRead8 a ++ framesRead8 b) s).map fun _ =>
      adcTwoBytes (s.byte 1) (s.byte 3) := by
  rw [readAdcTwo, read8_eq_calls]
  refine calls_andThen _ _ s _ _ _ fun t ht => ?_
  rw [read8_eq_calls, map_map, ht.byte]
  rfl

end Sys2Proof.Machine
end

