-- ==== Sys2Proof/Laws/Commands.lean ====
section
/-! SUPPORT. Each command as one list of calls and one result: with these and the lemmas of
`Laws/Calls.lean` no proof unfolds a meaning again. -/

namespace Sys2Proof.Machine

section Admission
variable {s : State} {k : CommandKind} {body : State → Ran Value}

theorem admit_admitted (h : admission s.block.lifecycle k = none) :
    whenAdmitted k s body = (body s).deliver := by simp [whenAdmitted, h]

theorem admit_refused {e : Status} {v : Value} (h : admission s.block.lifecycle k = some (e, v)) :
    whenAdmitted k s body = .next (s.after 0 [] e v) := by
  simp [whenAdmitted, h, raiseError, respond_eq_after]

/-- In VALID every command but INIT and DISPOSE runs its body. -/
theorem admit_valid (h : s.block.lifecycle = .valid) : whenAdmitted .other s body = (body s).deliver :=
  admit_admitted (by rw [h]; rfl)

theorem admit_disposed (h : s.block.lifecycle = .disposed) (hk : k ≠ .dispose) :
    whenAdmitted k s body = .next (s.after 0 [] .disposed 0) := by
  apply admit_refused
  rw [h]
  cases k
  · rfl
  · exact absurd rfl hk
  · rfl

theorem admit_failed (h : s.block.lifecycle = .failed) (hk : k ≠ .dispose) :
    whenAdmitted k s body = .next (s.after 0 [] .state 2) := by
  apply admit_refused
  rw [h]
  cases k
  · rfl
  · exact absurd rfl hk
  · rfl

theorem admit_uninit (h : s.block.lifecycle = .uninit) :
    whenAdmitted .other s body = .next (s.after 0 [] .state 0) := admit_refused (by rw [h]; rfl)

theorem admit_dispose : whenAdmitted .dispose s body = (body s).deliver := by
  apply admit_admitted
  cases s.block.lifecycle <;> rfl

end Admission

/-- Every command is its body behind the lifecycle check. -/
theorem exec_eq_admit (i : Instr) :
    ∃ body : State → Ran Value, ∀ s, exec i s = whenAdmitted (kindOf i) s body := by
  cases i <;> exact ⟨_, fun _ => rfl⟩

/-- The result a command of a VALID block answers with, read off the transport's answers. -/
def resultOf (s : State) : Instr → Value
  | .init => 0
  | .dispose => 0
  | .read8 _ => (s.byte 1).setWidth 32
  | .read16 _ => (littleEndian (s.byte 1) (s.byte2 1)).setWidth 32
  | .write8 _ _ => 0
  | .setMode _ => 0
  | .setOsrsT _ => 0
  | .setOsrsP _ => 0
  | .setOsrsH _ => 0
  | .softReset => 0
  | .getMode => (powerMode (s.byte 1)).setWidth 32
  | .hasNewData => (newDataFlag (s.byte 1)).setWidth 32
  | .readAdcT => adcThreeBytes (s.byte 1) (s.byte 3) (s.byte 5)
  | .readAdcP => adcThreeBytes (s.byte 1) (s.byte 3) (s.byte 5)
  | .readAdcH => adcTwoBytes (s.byte 1) (s.byte 3)
  | .readCal _ => 0

/-- SET_MODE's check is the one WellFormed makes. -/
theorem legalMode_iff (m : Byte) : legalMode m = true ↔ m.toNat ≤ 1 := by
  simp [legalMode, BitVec.le_def]

/-- A command of a VALID block with a legal operand is its frames and its result; READ_CAL, which has
no frames, stands apart. -/
theorem exec_eq_calls {i : Instr} {s : State} (hv : s.block.lifecycle = .valid)
    (hk : kindOf i = .other) (hw : i.wellFormed = true) (hc : ∀ j, i ≠ .readCal j) :
    exec i s = ((runCalls (frames s i) s).map fun _ => resultOf s i).deliver := by
  cases i with
  | init => simp [kindOf] at hk
  | dispose => simp [kindOf] at hk
  | readCal j => exact absurd rfl (hc j)
  | read8 r => rw [exec, execRead8, admit_valid hv, read8_eq_calls, map_map]; rfl
  | read16 r => rw [exec, execRead16, admit_valid hv, read16_eq_calls, map_map]; rfl
  | write8 r v => rw [exec, execWrite8, admit_valid hv, writeReg_eq_calls]; rfl
  | setMode m =>
    have hm : legalMode m = true := (legalMode_iff m).mpr (by simpa [Instr.wellFormed] using hw)
    rw [exec, execSetMode, admit_valid hv, if_pos hm, rmw_eq_calls]
    rfl
  | setOsrsT l => rw [exec, execSetOsrsT, admit_valid hv, rmw_eq_calls]; rfl
  | setOsrsP l => rw [exec, execSetOsrsP, admit_valid hv, rmw_eq_calls]; rfl
  | setOsrsH l => rw [exec, execSetOsrsH, admit_valid hv, rmw_eq_calls]; rfl
  | softReset => rw [exec, execSoftReset, admit_valid hv, writeReg_eq_calls]; rfl
  | getMode => rw [exec, execGetMode, admit_valid hv, read8_eq_calls, map_map]; rfl
  | hasNewData => rw [exec, execHasNewData, admit_valid hv, read8_eq_calls, map_map]; rfl
  | readAdcT => rw [exec, execReadAdcT, admit_valid hv, readAdcThree_eq_calls]; rfl
  | readAdcP => rw [exec, execReadAdcP, admit_valid hv, readAdcThree_eq_calls]; rfl
  | readAdcH => rw [exec, execReadAdcH, admit_valid hv, readAdcTwo_eq_calls]; rfl

/-- An operand outside the legal set is refused before any primitive. -/
theorem exec_illegalOperand {i : Instr} {s : State} (hv : s.block.lifecycle = .valid)
    (hw : i.wellFormed = false) :
    exec i s = .next (s.after 0 [] .illegalOperand (i.operandA.setWidth 32)) := by
  cases i with
  | setMode m =>
    have hm : ¬ legalMode m = true := by
      rw [legalMode_iff]
      simpa [Instr.wellFormed] using hw
    rw [exec, execSetMode, admit_valid hv, if_neg hm, deliver_raised, respond_eq_after]
    rfl
  | readCal j =>
    have hj : ¬ j.toNat < 20 := by
      have : ¬ j.toNat ≤ 19 := by simpa [Instr.wellFormed] using hw
      omega
    rw [exec, execReadCal, admit_valid hv, dif_neg hj, deliver_raised, respond_eq_after]
    rfl
  | init => cases hw
  | dispose => cases hw
  | read8 r => cases hw
  | read16 r => cases hw
  | write8 r v => cases hw
  | setOsrsT l => cases hw
  | setOsrsP l => cases hw
  | setOsrsH l => cases hw
  | softReset => cases hw
  | getMode => cases hw
  | hasNewData => cases hw
  | readAdcT => cases hw
  | readAdcP => cases hw
  | readAdcH => cases hw

theorem exec_readCal {i : Byte} {s : State} {store : CalStore} (hv : s.block.lifecycle = .valid)
    (hi : i.toNat < 20) (hs : s.block.cal = some store) :
    exec (.readCal i) s = .next (s.after 0 [] .ok store[i.toNat].raw) := by
  rw [exec, execReadCal, admit_valid hv, dif_pos hi]
  simp only [hs]
  rw [deliver_done, respond_eq_after]

theorem exec_readCal_noStore {i : Byte} {s : State} (hv : s.block.lifecycle = .valid)
    (hi : i.toNat < 20) (hs : s.block.cal = none) :
    exec (.readCal i) s = .fault .noCalibrationStore := by
  rw [exec, execReadCal, admit_valid hv, dif_pos hi]
  simp only [hs]
  rfl

/-- Outside VALID a command that is neither INIT nor DISPOSE is refused. -/
theorem exec_outsideValid {i : Instr} {s : State} (hk : kindOf i = .other)
    (hv : s.block.lifecycle ≠ .valid) :
    ∃ e v, (e = .state ∨ e = .disposed) ∧ exec i s = .next (s.after 0 [] e v) := by
  obtain ⟨body, hb⟩ := exec_eq_admit i
  rw [hb, hk]
  cases h : s.block.lifecycle with
  | uninit => exact ⟨_, _, .inl rfl, admit_uninit h⟩
  | valid => exact absurd h hv
  | failed => exact ⟨_, _, .inl rfl, admit_failed h (by simp)⟩
  | disposed => exact ⟨_, _, .inr rfl, admit_disposed h (by simp)⟩

/-! ### DISPOSE and INIT -/

/-- DISPOSE, in every state whose release returns. -/
theorem exec_dispose {s : State} (hr : s.ReleaseReturns) :
    exec .dispose s = .next ((s.withBlock ⟨.disposed, none, none, none⟩).after 0
      (if s.block.tp.isSome then [.rel] else []) .ok 0) := by
  rw [exec, execDispose, admit_dispose]
  cases h : s.block.tp with
  | none => simp [releaseIfHeld, h, respond, State.after, State.withBlock]
  | some d =>
    simp [releaseIfHeld, busRelease, h, hr d h, respond, State.after, State.withBlock, State.record]

/-- DISPOSE of a handle whose release never returns. -/
theorem exec_dispose_silent {s : State} {h : TransportHandle} (htp : s.block.tp = some h)
    (hr : h.releaseReturns = false) : exec .dispose s = .fault .primitiveNeverReturns := by
  rw [exec, execDispose, admit_dispose]
  simp [releaseIfHeld, busRelease, htp, hr]

theorem exec_init_absent {s : State} (hu : s.block.lifecycle = .uninit) (ht : s.hostTp = none) :
    exec .init s =
      .next ((s.withBlock { s.block with lifecycle := .failed }).after 0 [] .argument 0) := by
  rw [exec, execInit, admit_admitted (by rw [hu]; rfl)]
  simp only [ht]
  rw [deliver_raised, respond_eq_after]

/-- The block state an INIT that had a handle and failed leaves. -/
def initFailed (b : BlockState) : BlockState := { b with tp := none, lifecycle := .failed }

/-- `init_fail` on a raise in a state that holds a handle. -/
theorem initFail_raised {e : Status} {v : Value} {s : State} {h : TransportHandle}
    (htp : s.block.tp = some h) (hr : h.releaseReturns = true) :
    initFail (.raised e v s) = .raised e v ((s.record .rel).withBlock (initFailed s.block)) := by
  simp [initFail, busRelease, htp, hr, initFailed]

/-- `init_fail` on a raise whose release never returns. -/
theorem initFail_raised_silent {e : Status} {v : Value} {s : State} {h : TransportHandle}
    (htp : s.block.tp = some h) (hr : h.releaseReturns = false) :
    initFail (.raised e v s) = .stopped .primitiveNeverReturns := by
  simp [initFail, busRelease, htp, hr]

/-- INIT with a handle is `init_fail` around the body that begins with the address query. -/
theorem exec_init_present {s : State} {h : TransportHandle} (hu : s.block.lifecycle = .uninit)
    (ht : s.hostTp = some h) :
    exec .init s = (initFail (initBody (s.withBlock { s.block with tp := some h }))).deliver := by
  rw [exec, execInit, admit_admitted (by rw [hu]; rfl)]
  simp only [ht]

/-- INIT with a handle whose address query never returns. -/
theorem exec_init_silentAddress {s : State} {h : TransportHandle}
    (hu : s.block.lifecycle = .uninit) (ht : s.hostTp = some h) (hq : h.addressReturns = false) :
    exec .init s = .fault .primitiveNeverReturns := by
  rw [exec_init_present hu ht]
  simp [initBody, busAddress, hq, initFail]

theorem exec_init_range {s : State} {h : TransportHandle} (hu : s.block.lifecycle = .uninit)
    (ht : s.hostTp = some h) (hp : h.Prompt) (ha : legalAddress h.address = false) :
    exec .init s = .next ((s.withBlock (initFailed s.block)).after 0
      [.addr h.address, .rel] .range (h.address.setWidth 32)) := by
  rw [exec_init_present hu ht]
  simp [initBody, busAddress, hp.1, hp.2, ha, initFail, busRelease, initFailed, respond,
    State.after, State.withBlock, State.record]

theorem exec_init_range_silent {s : State} {h : TransportHandle} (hu : s.block.lifecycle = .uninit)
    (ht : s.hostTp = some h) (ha : legalAddress h.address = false)
    (hr : h.releaseReturns = false) : exec .init s = .fault .primitiveNeverReturns := by
  cases hq : h.addressReturns with
  | false => exact exec_init_silentAddress hu ht hq
  | true =>
    rw [exec_init_present hu ht]
    simp [initBody, busAddress, hq, ha, initFail, busRelease, hr]

/-- The state in which INIT, past the address check, starts its frames. -/
def initStart (s : State) (h : TransportHandle) : State :=
  (s.withBlock { s.block with tp := some h }).record (.addr h.address)

theorem initStart_held (s : State) (h : TransportHandle) :
    (initStart s h).block.tp.isSome = true := rfl

/-- The store the loader builds in INIT is the one read off INIT's own answers. -/
theorem storeFrom_eq {s t : State} (hp : t.params = s.params)
    (h : ∀ k, t.answer k = s.answer (2 + k)) :
    (Vector.ofFn fun i : Fin 20 =>
      constantFrom t (framesCalibration t.params.calMap i).length t.params.calMap[i]) =
      storeFrom s := by
  rw [hp, storeFrom]
  congr 1
  funext i
  exact constantFrom_shift h _ _

/-- The body of INIT past the address check: the chip-ID frames, the identity check, the loader's
frames. -/
theorem initBody_legal {s : State} {h : TransportHandle} (htp : s.block.tp = some h)
    (hq : h.addressReturns = true) (ha : legalAddress h.address = true) :
    initBody s = (runCalls (framesRead8 s.params.regChipId) (s.record (.addr h.address))).andThen
      fun _ t => if s.byte 1 = Config.chipIdValue then
        (runCalls (framesCalibration s.params.calMap 20) t).andThen fun _ u =>
          .done 0 (u.withBlock ⟨.valid, some h, some h.address, some (storeFrom s)⟩)
      else .raised .identity ((s.byte 1).setWidth 32) t := by
  rw [initBody]
  simp only [busAddress, htp, hq, andThen_done, ha, if_true, read8_eq_calls, map_andThen, record_params]
  refine andThen_congr fun _ t ht => ?_
  have d := runCalls_done ht
  have hb : (s.record (.addr h.address)).byte 1 = s.byte 1 := rfl
  by_cases hid : s.byte 1 = Config.chipIdValue
  · rw [if_pos (hb.trans hid), if_pos hid, loadCalibration_eq_calls, map_andThen,
      storeFrom_eq (s := s) d.params d.answer, d.params]
    refine andThen_congr fun _ u hu => ?_
    have e := runCalls_done hu
    rw [e.block, d.block, record_block, htp]
  · rw [if_neg fun hc => hid (hb.symm.trans hc), if_neg hid, hb]

/-- INIT past the address check. -/
theorem exec_init_legal {s : State} {h : TransportHandle} (hu : s.block.lifecycle = .uninit)
    (ht : s.hostTp = some h) (hq : h.addressReturns = true)
    (ha : legalAddress h.address = true) :
    exec .init s = (initFail ((runCalls (framesRead8 s.params.regChipId) (initStart s h)).andThen
      fun _ t => if s.byte 1 = Config.chipIdValue then
        (runCalls (framesCalibration s.params.calMap 20) t).andThen fun _ u =>
          .done 0 (u.withBlock ⟨.valid, some h, some h.address, some (storeFrom s)⟩)
      else .raised .identity ((s.byte 1).setWidth 32) t)).deliver := by
  rw [exec_init_present hu ht,
    initBody_legal (s := s.withBlock { s.block with tp := some h }) (by simp) hq ha]
  rfl

end Sys2Proof.Machine
end

