-- ==== Sys2Proof/Laws/Encoding.lean ====
section
/-! SUPPORT. The fields of a command word: what laying them side by side and taking them apart do,
and what the masks of the three operand forms ask of a word. -/

namespace Sys2Proof

@[simp] theorem opField_assembleFields (op a b : Byte) : opField (assembleFields op a b) = op := by
  apply BitVec.eq_of_getLsbD_eq
  intro i hi
  simp only [opField, assembleFields, BitVec.getLsbD_extractLsb', BitVec.getLsbD_append]
  simp [hi, show ¬ 16 + i < 8 by omega, show ¬ 16 + i - 8 < 8 by omega,
    show 16 + i - 8 - 8 = i by omega]

@[simp] theorem aField_assembleFields (op a b : Byte) : aField (assembleFields op a b) = a := by
  apply BitVec.eq_of_getLsbD_eq
  intro i hi
  simp only [aField, assembleFields, BitVec.getLsbD_extractLsb', BitVec.getLsbD_append]
  simp [hi]

@[simp] theorem bField_assembleFields (op a b : Byte) : bField (assembleFields op a b) = b := by
  apply BitVec.eq_of_getLsbD_eq
  intro i hi
  simp only [bField, assembleFields, BitVec.getLsbD_extractLsb', BitVec.getLsbD_append]
  simp [hi]

/-- A word is its three fields. -/
theorem assembleFields_fields (w : CommandWord) :
    assembleFields (opField w) (aField w) (bField w) = w := by
  apply BitVec.eq_of_getLsbD_eq
  intro i hi
  simp only [opField, aField, bField, assembleFields, BitVec.getLsbD_extractLsb',
    BitVec.getLsbD_append]
  by_cases h1 : i < 8
  · simp [h1]
  · by_cases h2 : i - 8 < 8
    · simp [h1, h2, show 8 + (i - 8) = i by omega]
    · simp [h1, h2, show i - 8 - 8 < 8 by omega, show 16 + (i - 8 - 8) = i by omega]

/-- Two words are equal when their fields are. -/
theorem assembleFields_inj {op a b op' a' b' : Byte} :
    assembleFields op a b = assembleFields op' a' b' ↔ op = op' ∧ a = a' ∧ b = b' := by
  constructor
  · intro h
    refine ⟨?_, ?_, ?_⟩
    · simpa using congrArg opField h
    · simpa using congrArg aField h
    · simpa using congrArg bField h
  · rintro ⟨rfl, rfl, rfl⟩
    rfl

theorem assembleFields_and (op a b op' a' b' : Byte) :
    assembleFields op a b &&& assembleFields op' a' b' =
      assembleFields (op &&& op') (a &&& a') (b &&& b') := by
  apply BitVec.eq_of_getLsbD_eq
  intro i _
  simp only [assembleFields, BitVec.getLsbD_and, BitVec.getLsbD_append]
  split
  · rfl
  · split <;> rfl

/-- The mask of form N asks for the opcode and for both operand fields to be 0 (R91, R92). -/
theorem mask_formN (w : CommandWord) (op : Byte) :
    w &&& 0xFFFFFF = assembleFields op 0 0 ↔ opField w = op ∧ aField w = 0 ∧ bField w = 0 := by
  rw [show (0xFFFFFF : CommandWord) = assembleFields 0xFF 0xFF 0xFF from by decide]
  conv_lhs => rw [← assembleFields_fields w]
  rw [assembleFields_and, assembleFields_inj]
  simp only [show (0xFF : Byte) = BitVec.allOnes 8 from by decide, BitVec.and_allOnes]

/-- The mask of form A asks for the opcode and for field `B` to be 0 (R91, R92). -/
theorem mask_formA (w : CommandWord) (op : Byte) :
    w &&& 0xFF00FF = assembleFields op 0 0 ↔ opField w = op ∧ bField w = 0 := by
  rw [show (0xFF00FF : CommandWord) = assembleFields 0xFF 0x00 0xFF from by decide]
  conv_lhs => rw [← assembleFields_fields w]
  rw [assembleFields_and, assembleFields_inj]
  simp only [show (0xFF : Byte) = BitVec.allOnes 8 from by decide, BitVec.and_allOnes]
  simp

/-- The mask of form AB asks for the opcode alone (R91, R92). -/
theorem mask_formAB (w : CommandWord) (op : Byte) :
    w &&& 0xFF0000 = assembleFields op 0 0 ↔ opField w = op := by
  rw [show (0xFF0000 : CommandWord) = assembleFields 0xFF 0x00 0x00 from by decide]
  conv_lhs => rw [← assembleFields_fields w]
  rw [assembleFields_and, assembleFields_inj]
  simp only [show (0xFF : Byte) = BitVec.allOnes 8 from by decide, BitVec.and_allOnes]
  simp

/-- The mask a form asks for (R91). -/
def Form.mask : Form → CommandWord
  | .n => 0xFFFFFF
  | .a => 0xFF00FF
  | .ab => 0xFF0000

/-- Each row's match is its opcode with the operand fields 0, its mask its form's. -/
theorem opcodeMap_match : ∀ row ∈ opcodeMap,
    row.matchBits = assembleFields row.op 0 0 ∧ row.mask = row.form.mask := by decide

/-- Each row's opcode is its mnemonic's. -/
theorem opcodeMap_op : ∀ row ∈ opcodeMap, row.op = row.mnemonic.op := by decide

/-- Every mnemonic has a row. -/
theorem opcodeMap_complete (m : Mnemonic) : ∃ row ∈ opcodeMap, row.mnemonic = m := by
  cases m <;> decide

/-- The opcodes of the map are distinct. -/
theorem opcodeMap_op_inj : ∀ row ∈ opcodeMap, ∀ row' ∈ opcodeMap, row.op = row'.op → row = row' := by
  decide

/-- A form that does not use field `B`, or field `A`, has a mnemonic whose commands leave it 0. -/
theorem opcodeMap_form {row : OpcodeRow} (h : row ∈ opcodeMap) {i : Instr}
    (hm : row.mnemonic = i.mnemonic) :
    (row.form ≠ .ab → i.operandB = 0) ∧ (row.form = .n → i.operandA = 0) := by
  have hf : ∀ row ∈ opcodeMap, (row.form ≠ .ab → row.mnemonic ≠ .WRITE8) ∧
      (row.form = .n → row.mnemonic ∈ [.INIT, .DISPOSE, .SOFT_RESET, .GET_MODE, .HAS_NEW_DATA,
        .READ_ADC_T, .READ_ADC_P, .READ_ADC_H]) := by decide
  obtain ⟨hb, ha⟩ := hf row h
  rw [hm] at hb ha
  cases i <;> simp_all [Instr.mnemonic, Instr.operandA, Instr.operandB]

end Sys2Proof
end

