-- ==== Sys2Proof/Laws/Inversion.lean ====
section
/-! SUPPORT. Every way a command can end, said once: `ends_of_next` takes an answered command apart
into the endings of `Ends`, so that a claim about every command is a short case analysis. -/

namespace Sys2Proof.Machine

/-! ### INIT as one list of calls -/

/-- INIT at a legal address with the chip identified: the frames of R102, then success. -/
theorem exec_init_identified {s : State} {h : TransportHandle} (hu : s.block.lifecycle = .uninit)
    (ht : s.hostTp = some h) (hq : h.addressReturns = true)
    (ha : legalAddress h.address = true) (hid : s.byte 1 = Config.chipIdValue) :
    exec .init s = (initFail ((runCalls (framesInit s.params) (initStart s h)).andThen fun _ u =>
      .done 0 (u.withBlock ⟨.valid, some h, some h.address, some (storeFrom s)⟩))).deliver := by
  rw [exec_init_legal hu ht hq ha]
  simp only [if_pos hid]
  rw [framesInit, runCalls_append]
  cases runCalls (framesRead8 s.params.regChipId) (initStart s h) <;> rfl

/-- INIT at a legal address with another chip: the chip-ID frames, then IDENTITY. -/
theorem exec_init_unidentified {s : State} {h : TransportHandle}
    (hu : s.block.lifecycle = .uninit) (ht : s.hostTp = some h) (hq : h.addressReturns = true)
    (ha : legalAddress h.address = true) (hid : s.byte 1 ≠ Config.chipIdValue) :
    exec .init s = (initFail ((runCalls (framesRead8 s.params.regChipId) (initStart s h)).andThen
      fun _ t => .raised .identity ((s.byte 1).setWidth 32) t)).deliver := by
  rw [exec_init_legal hu ht hq ha]
  simp only [if_neg hid]

/-- The events of completed calls depend on the answers alone. -/
theorem okEventsFrom_congr {s t : State} (h : ∀ k, t.answer k = s.answer k) (k : Nat)
    (cs : List BusCall) : okEventsFrom t k cs = okEventsFrom s k cs := by
  induction cs generalizing k with
  | nil => rfl
  | cons c cs ih => simp [okEventsFrom, ih, State.byte, State.byte2, h]

/-- The response of an INIT that failed after `n` answers. -/
theorem initFail_moved (s : State) {h : TransportHandle} (hr : h.releaseReturns = true) (n : Nat)
    (evs : List Event) (e : Status) (v : Value) :
    (initFail (.raised e v ((initStart s h).moved n evs))).deliver =
      .next ((s.withBlock (initFailed s.block)).after n (.addr h.address :: evs ++ [.rel]) e v) := by
  rw [initFail_raised (h := h) (by rfl) hr, deliver_raised]
  simp [respond, State.after, State.withBlock, State.record, State.moved, initStart, initFailed]

/-- An INIT that failed after `n` answers and whose release never returns. -/
theorem initFail_moved_silent (s : State) {h : TransportHandle} (hr : h.releaseReturns = false)
    (n : Nat) (evs : List Event) (e : Status) (v : Value) :
    (initFail (.raised e v ((initStart s h).moved n evs))).deliver =
      .fault .primitiveNeverReturns := by
  rw [initFail_raised_silent (h := h) (by rfl) hr, deliver_stopped]

/-- An INIT that is answered after a raise has released its handle. -/
theorem initFail_moved_next {s t : State} {h : TransportHandle} {n : Nat} {evs : List Event}
    {e : Status} {v : Value}
    (he : (initFail (.raised e v ((initStart s h).moved n evs))).deliver = .next t) :
    h.releaseReturns = true ∧
      t = (s.withBlock (initFailed s.block)).after n (.addr h.address :: evs ++ [.rel]) e v := by
  cases hr : h.releaseReturns with
  | true =>
    rw [initFail_moved s hr] at he
    cases he
    exact ⟨rfl, rfl⟩
  | false =>
    rw [initFail_moved_silent s hr] at he
    cases he

theorem initDone_moved (s : State) (h : TransportHandle) (n : Nat) (evs : List Event)
    (b : BlockState) :
    (initFail (.done 0 (((initStart s h).moved n evs).withBlock b))).deliver =
      .next ((s.withBlock b).after n (.addr h.address :: evs) .ok 0) := by
  simp [initFail, respond, State.after, State.withBlock, State.record, State.moved, initStart]

/-! ### The endings of a command -/

/-- How a command ends with a next state. -/
inductive Ends : Instr → State → State → Prop where
  /-- The lifecycle does not accept it. -/
  | refused {i : Instr} {s : State} {e : Status} {v : Value}
      (h : admission s.block.lifecycle (kindOf i) = some (e, v)) : Ends i s (s.after 0 [] e v)
  /-- Its operand is outside the legal set. -/
  | illegalOperand {i : Instr} {s : State} (hv : s.block.lifecycle = .valid)
      (hk : kindOf i = .other) (hw : i.wellFormed = false) :
      Ends i s (s.after 0 [] .illegalOperand (i.operandA.setWidth 32))
  /-- READ_CAL answers from the store. -/
  | constant {j : Byte} {s : State} {store : CalStore} (hv : s.block.lifecycle = .valid)
      (hj : j.toNat < 20) (hs : s.block.cal = some store) :
      Ends (.readCal j) s (s.after 0 [] .ok store[j.toNat].raw)
  /-- All its frames complete. -/
  | completed {i : Instr} {s : State} (hr : s.Ready) (hk : kindOf i = .other)
      (hw : i.wellFormed = true) (hc : ∀ j, i ≠ .readCal j)
      (h : s.Returning (frames s i).length) :
      Ends i s (s.after (frames s i).length (okEventsFrom s 0 (frames s i)) .ok (resultOf s i))
  /-- One of its frames faults. -/
  | faulted {i : Instr} {s : State} {k : Nat} (hr : s.Ready) (hk : kindOf i = .other)
      (hw : i.wellFormed = true) (hlt : k < (frames s i).length) (h : s.Returning k)
      (hf : s.answer k = .faults) :
      Ends i s (s.after (k + 1)
        (okEventsFrom s 0 ((frames s i).take k) ++ [(frames s i)[k].faultEvent]) .transport 0)
  /-- DISPOSE. -/
  | disposed {s : State} (hr : s.ReleaseReturns) : Ends .dispose s ((s.withBlock ⟨.disposed, none, none, none⟩).after 0
      (if s.block.tp.isSome then [.rel] else []) .ok 0)
  /-- INIT with no handle presented. -/
  | initAbsent {s : State} (hu : s.block.lifecycle = .uninit) (ht : s.hostTp = none) :
      Ends .init s ((s.withBlock { s.block with lifecycle := .failed }).after 0 [] .argument 0)
  /-- INIT at an illegal address. -/
  | initRange {s : State} {h : TransportHandle} (hu : s.block.lifecycle = .uninit)
      (ht : s.hostTp = some h) (hp : h.Prompt) (ha : legalAddress h.address = false) :
      Ends .init s ((s.withBlock (initFailed s.block)).after 0
        [.addr h.address, .rel] .range (h.address.setWidth 32))
  /-- INIT with another chip. -/
  | initIdentity {s : State} {h : TransportHandle} (hu : s.block.lifecycle = .uninit)
      (ht : s.hostTp = some h) (hp : h.Prompt) (ha : legalAddress h.address = true)
      (hr : s.Returning 2)
      (hid : s.byte 1 ≠ Config.chipIdValue) :
      Ends .init s ((s.withBlock (initFailed s.block)).after 2
        [.addr h.address, .wrB s.params.regChipId, .rdB (s.byte 1), .rel] .identity
        ((s.byte 1).setWidth 32))
  /-- INIT with a frame that faults. -/
  | initFaulted {s : State} {h : TransportHandle} {k : Nat} (hu : s.block.lifecycle = .uninit)
      (ht : s.hostTp = some h) (hp : h.Prompt) (ha : legalAddress h.address = true)
      (hlt : k < (framesInit s.params).length) (hr : s.Returning k) (hf : s.answer k = .faults)
      (hid : 2 ≤ k → s.byte 1 = Config.chipIdValue) :
      Ends .init s ((s.withBlock (initFailed s.block)).after (k + 1)
        (.addr h.address :: okEventsFrom s 0 ((framesInit s.params).take k) ++
          [(framesInit s.params)[k].faultEvent, .rel]) .transport 0)
  /-- INIT that succeeds. -/
  | initCompleted {s : State} {h : TransportHandle} (hu : s.block.lifecycle = .uninit)
      (ht : s.hostTp = some h) (hq : h.addressReturns = true)
      (ha : legalAddress h.address = true) (hr : s.Returning (framesInit s.params).length)
      (hid : s.byte 1 = Config.chipIdValue) :
      Ends .init s ((s.withBlock ⟨.valid, some h, some h.address, some (storeFrom s)⟩).after
        (framesInit s.params).length
        (.addr h.address :: okEventsFrom s 0 (framesInit s.params)) .ok 0)

theorem framesInit_length (p : Config.Params) :
    (framesInit p).length = 2 + (framesCalibration p.calMap 20).length := by
  simp [framesInit, framesRead8]
  omega

theorem framesInit_take {p : Config.Params} {k : Nat} (hk : k < 2) :
    (framesInit p).take k = (framesRead8 p.regChipId).take k := by
  have : k = 0 ∨ k = 1 := by omega
  rcases this with rfl | rfl <;> rfl

theorem framesInit_get {p : Config.Params} {k : Nat} (hk : k < (framesRead8 p.regChipId).length)
    (hk' : k < (framesInit p).length) : (framesInit p)[k] = (framesRead8 p.regChipId)[k] := by
  simp only [framesInit]
  exact List.getElem_append_left hk

/-- INIT, admitted, with a handle at a legal address. -/
theorem ends_init_legal {s t : State} {h : TransportHandle} (hu : s.block.lifecycle = .uninit)
    (ht : s.hostTp = some h) (ha : legalAddress h.address = true) (he : exec .init s = .next t) :
    Ends .init s t := by
  have hs : ∀ k, (initStart s h).answer k = s.answer k := fun _ => rfl
  have hq : h.addressReturns = true := by
    cases hq : h.addressReturns with
    | true => rfl
    | false =>
      rw [exec_init_silentAddress hu ht hq] at he
      cases he
  by_cases hid : s.byte 1 = Config.chipIdValue
  · rw [exec_init_identified hu ht hq ha hid] at he
    rcases runCalls_cases (framesInit s.params) (initStart s h) (initStart_held s h) with
      ⟨hr, hx⟩ | ⟨k, hk, hr, hf, hx⟩ | ⟨k, hk, hr, hf, hx⟩
    · rw [hx, andThen_done, initDone_moved, okEventsFrom_congr hs] at he
      cases he
      exact .initCompleted hu ht hq ha hr hid
    · rw [hx, andThen_raised, okEventsFrom_congr hs] at he
      obtain ⟨hrel, rfl⟩ := initFail_moved_next he
      simpa using Ends.initFaulted hu ht ⟨hq, hrel⟩ ha hk hr hf fun _ => hid
    · rw [hx] at he
      cases he
  · rw [exec_init_unidentified hu ht hq ha hid] at he
    rcases runCalls_cases (framesRead8 s.params.regChipId) (initStart s h) (initStart_held s h) with
      ⟨hr, hx⟩ | ⟨k, hk, hr, hf, hx⟩ | ⟨k, hk, hr, hf, hx⟩
    · rw [hx, andThen_done, okEventsFrom_congr hs] at he
      obtain ⟨hrel, rfl⟩ := initFail_moved_next he
      exact .initIdentity hu ht ⟨hq, hrel⟩ ha hr hid
    · rw [hx, andThen_raised, okEventsFrom_congr hs] at he
      obtain ⟨hrel, rfl⟩ := initFail_moved_next he
      have hk2 : k < 2 := hk
      have hk' : k < (framesInit s.params).length := by rw [framesInit_length]; omega
      rw [← framesInit_take hk2, ← framesInit_get hk hk']
      simpa using Ends.initFaulted hu ht ⟨hq, hrel⟩ ha hk' hr hf fun hc => by omega
    · rw [hx] at he
      cases he

/-- Every way a command can end with a next state. -/
theorem ends_of_next {i : Instr} {s t : State} (h : exec i s = .next t) : Ends i s t := by
  cases ha : admission s.block.lifecycle (kindOf i) with
  | some r =>
    obtain ⟨e, v⟩ := r
    obtain ⟨body, hb⟩ := exec_eq_admit i
    rw [hb, admit_refused ha] at h
    cases h
    exact .refused ha
  | none =>
    cases hk : kindOf i with
    | init =>
      have hi : i = .init := by cases i <;> simp [kindOf] at hk ⊢
      subst hi
      have hu : s.block.lifecycle = .uninit := by
        cases hl : s.block.lifecycle <;> simp [hl, kindOf, admission] at ha ⊢
      cases ht : s.hostTp with
      | none =>
        rw [exec_init_absent hu ht] at h
        cases h
        exact .initAbsent hu ht
      | some d =>
        cases hl : legalAddress d.address with
        | false =>
          cases hq : d.addressReturns with
          | false =>
            rw [exec_init_silentAddress hu ht hq] at h
            cases h
          | true =>
            cases hr : d.releaseReturns with
            | false =>
              rw [exec_init_range_silent hu ht hl hr] at h
              cases h
            | true =>
              rw [exec_init_range hu ht ⟨hq, hr⟩ hl] at h
              cases h
              exact .initRange hu ht ⟨hq, hr⟩ hl
        | true => exact ends_init_legal hu ht hl h
    | dispose =>
      have hi : i = .dispose := by cases i <;> simp [kindOf] at hk ⊢
      subst hi
      by_cases hr : s.ReleaseReturns
      · rw [exec_dispose hr] at h
        cases h
        exact .disposed hr
      · obtain ⟨d, htp, hr⟩ : ∃ d, s.block.tp = some d ∧ d.releaseReturns = false := by
          simpa [State.ReleaseReturns] using hr
        rw [exec_dispose_silent htp hr] at h
        cases h
    | other =>
      have hv : s.block.lifecycle = .valid := by
        cases hl : s.block.lifecycle <;> simp [hl, hk, admission] at ha ⊢
      cases hw : i.wellFormed with
      | false =>
        rw [exec_illegalOperand hv hw] at h
        cases h
        exact .illegalOperand hv hk hw
      | true =>
        by_cases hc : ∃ j, i = .readCal j
        · obtain ⟨j, rfl⟩ := hc
          have hj : j.toNat < 20 := by
            have : j.toNat ≤ 19 := by simpa [Instr.wellFormed] using hw
            omega
          cases hs : s.block.cal with
          | none =>
            rw [exec_readCal_noStore hv hj hs] at h
            cases h
          | some store =>
            rw [exec_readCal hv hj hs] at h
            cases h
            exact .constant hv hj hs
        · have hc' : ∀ j, i ≠ .readCal j := fun j hj => hc ⟨j, hj⟩
          rw [exec_eq_calls hv hk hw hc'] at h
          cases htp : s.block.tp with
          | none =>
            have : ∃ c cs, frames s i = c :: cs := by
              cases i <;> first
                | exact ⟨_, _, rfl⟩
                | exact absurd rfl (hc' _)
                | simp [kindOf] at hk
            obtain ⟨c, cs, hcs⟩ := this
            rw [hcs, runCalls_cons, transfer_noHandle htp] at h
            cases h
          | some d =>
            have hold : s.block.tp.isSome = true := by rw [htp]; rfl
            rcases runCalls_cases (frames s i) s hold with
              ⟨hr, hx⟩ | ⟨k, hlt, hr, hf, hx⟩ | ⟨k, hlt, hr, hf, hx⟩
            · rw [hx] at h
              cases h
              exact .completed ⟨hv, hold⟩ hk hw hc' hr
            · rw [hx] at h
              cases h
              exact .faulted ⟨hv, hold⟩ hk hw hlt hr hf
            · rw [hx] at h
              cases h

end Sys2Proof.Machine
end

