-- ==== Sys2Proof/Laws/Memory.lean ====
section
/-! SUPPORT. The storage of the reference device: writing keeps the canonical form, and a read after
a write gives the byte written at its address and the old byte everywhere else. -/

namespace Sys2Proof.Machine

theorem wfFrom_mono {lo lo' : Nat} {m : Memory} (h : lo' ≤ lo) (hm : Memory.wfFrom lo m = true) :
    Memory.wfFrom lo' m = true := by
  cases m with
  | nil => rfl
  | cons c m =>
    obtain ⟨k, b⟩ := c
    simp only [Memory.wfFrom, Bool.and_eq_true, decide_eq_true_eq] at hm ⊢
    exact ⟨⟨⟨by omega, hm.1.1.2⟩, hm.1.2⟩, hm.2⟩

/-- Writing keeps the canonical form. -/
theorem wfFrom_write {lo : Nat} {m : Memory} (a v : Byte) (ha : lo ≤ a.toNat)
    (hm : Memory.wfFrom lo m = true) : Memory.wfFrom lo (m.write a v) = true := by
  induction m generalizing lo with
  | nil =>
    simp only [Memory.write]
    split
    · rfl
    · next hv =>
      simp only [Memory.wfFrom, Bool.and_eq_true, decide_eq_true_eq, and_true]
      exact ⟨⟨ha, a.isLt⟩, by simpa using hv⟩
  | cons c m ih =>
    obtain ⟨k, b⟩ := c
    have hall := hm
    simp only [Memory.wfFrom, Bool.and_eq_true, decide_eq_true_eq] at hm
    obtain ⟨⟨⟨hlo, hk⟩, hb⟩, hrest⟩ := hm
    simp only [Memory.write]
    split
    · split
      · exact hall
      · next hlt hv =>
        simp only [Memory.wfFrom, Bool.and_eq_true, decide_eq_true_eq]
        exact ⟨⟨⟨ha, by omega⟩, by simpa using hv⟩, ⟨⟨⟨by omega, hk⟩, hb⟩, hrest⟩⟩
    · split
      · split
        · exact wfFrom_mono (by omega) hrest
        · next hv =>
          simp only [Memory.wfFrom, Bool.and_eq_true, decide_eq_true_eq]
          exact ⟨⟨⟨hlo, hk⟩, by simpa using hv⟩, hrest⟩
      · simp only [Memory.wfFrom, Bool.and_eq_true, decide_eq_true_eq]
        exact ⟨⟨⟨hlo, hk⟩, hb⟩, ih (by omega) hrest⟩

theorem wf_write {m : Memory} (a v : Byte) (hm : m.wf = true) : (m.write a v).wf = true :=
  wfFrom_write a v (Nat.zero_le _) hm

/-- An address below every entry reads as 0x00. -/
theorem read_below {lo : Nat} {m : Memory} {a : Byte} (ha : a.toNat < lo)
    (hm : Memory.wfFrom lo m = true) : m.read a = 0 := by
  induction m generalizing lo with
  | nil => rfl
  | cons c m ih =>
    obtain ⟨k, b⟩ := c
    simp only [Memory.wfFrom, Bool.and_eq_true, decide_eq_true_eq] at hm
    obtain ⟨⟨⟨hlo, _⟩, _⟩, hrest⟩ := hm
    rw [Memory.read, if_neg (by omega)]
    exact ih (by omega) hrest

/-- A read at the address written gives the byte written. -/
theorem read_write_same {lo : Nat} {m : Memory} (a v : Byte) (hm : Memory.wfFrom lo m = true) :
    (m.write a v).read a = v := by
  induction m generalizing lo with
  | nil =>
    simp only [Memory.write]
    split
    · next hv => simp [Memory.read, hv]
    · simp [Memory.read]
  | cons c m ih =>
    obtain ⟨k, b⟩ := c
    have hall := hm
    simp only [Memory.wfFrom, Bool.and_eq_true, decide_eq_true_eq] at hm
    obtain ⟨⟨⟨hlo, _⟩, _⟩, hrest⟩ := hm
    simp only [Memory.write]
    split
    · next hlt =>
      split
      · next hv =>
        rw [Memory.read, if_neg (by omega), hv]
        exact read_below (lo := k + 1) (by omega) hrest
      · simp [Memory.read]
    · split
      · next heq =>
        split
        · next hv => rw [hv]; exact read_below (lo := k + 1) (by omega) hrest
        · simp [Memory.read, heq]
      · next hne =>
        rw [Memory.read, if_neg hne]
        exact ih hrest

/-- A write leaves every other address alone. -/
theorem read_write_other {m : Memory} {a a' : Byte} (v : Byte) (h : a' ≠ a) :
    (m.write a v).read a' = m.read a' := by
  have hn : a'.toNat ≠ a.toNat := fun hc => h (BitVec.eq_of_toNat_eq hc)
  induction m with
  | nil =>
    simp only [Memory.write]
    split
    · rfl
    · simp [Memory.read, hn]
  | cons c m ih =>
    obtain ⟨k, b⟩ := c
    simp only [Memory.write]
    split
    · split
      · rfl
      · rw [Memory.read, if_neg hn]
    · split
      · next heq =>
        split
        · rw [Memory.read, if_neg (by omega)]
        · rw [Memory.read, Memory.read, if_neg (by omega), if_neg (by omega)]
      · rw [Memory.read, Memory.read, ih]

end Sys2Proof.Machine
end

