-- ==== Sys2Proof/Laws/PerInstr.lean ====
section
/-! SUPPORT. Statements about each command as syntax. The family `EncodedFields` says that a command
word carries the command's opcode and operands in its three fields and that they give the command
back: no bit of an encoding is dropped. -/

namespace Sys2Proof.Laws

/-- The fields of `encode i` are `i`'s, and the mnemonic with the operands is `i`. -/
def EncodedFields.Statement (i : Instr) : Prop :=
  opField (encode i) = i.mnemonic.op ∧ aField (encode i) = i.operandA ∧
    bField (encode i) = i.operandB ∧ i.mnemonic.command i.operandA i.operandB = i

/-- The first three parts hold of every command alike. -/
theorem encodedFields_of_command {i : Instr} (h : i.mnemonic.command i.operandA i.operandB = i) :
    EncodedFields.Statement i :=
  ⟨opField_assembleFields _ _ _, aField_assembleFields _ _ _, bField_assembleFields _ _ _, h⟩

theorem EncodedFields.init : EncodedFields.Statement .init := encodedFields_of_command rfl
theorem EncodedFields.dispose : EncodedFields.Statement .dispose := encodedFields_of_command rfl
theorem EncodedFields.read8 (r : Byte) : EncodedFields.Statement (.read8 r) :=
  encodedFields_of_command rfl
theorem EncodedFields.read16 (r : Byte) : EncodedFields.Statement (.read16 r) :=
  encodedFields_of_command rfl
theorem EncodedFields.write8 (r v : Byte) : EncodedFields.Statement (.write8 r v) :=
  encodedFields_of_command rfl
theorem EncodedFields.setMode (m : Byte) : EncodedFields.Statement (.setMode m) :=
  encodedFields_of_command rfl
theorem EncodedFields.setOsrsT (lvl : Byte) : EncodedFields.Statement (.setOsrsT lvl) :=
  encodedFields_of_command rfl
theorem EncodedFields.setOsrsP (lvl : Byte) : EncodedFields.Statement (.setOsrsP lvl) :=
  encodedFields_of_command rfl
theorem EncodedFields.setOsrsH (lvl : Byte) : EncodedFields.Statement (.setOsrsH lvl) :=
  encodedFields_of_command rfl
theorem EncodedFields.softReset : EncodedFields.Statement .softReset := encodedFields_of_command rfl
theorem EncodedFields.getMode : EncodedFields.Statement .getMode := encodedFields_of_command rfl
theorem EncodedFields.hasNewData : EncodedFields.Statement .hasNewData :=
  encodedFields_of_command rfl
theorem EncodedFields.readAdcT : EncodedFields.Statement .readAdcT := encodedFields_of_command rfl
theorem EncodedFields.readAdcP : EncodedFields.Statement .readAdcP := encodedFields_of_command rfl
theorem EncodedFields.readAdcH : EncodedFields.Statement .readAdcH := encodedFields_of_command rfl
theorem EncodedFields.readCal (i : Byte) : EncodedFields.Statement (.readCal i) :=
  encodedFields_of_command rfl

end Sys2Proof.Laws
end

