-- ==== Sys2Proof/Tests/Slice0.lean ====
section
/-! SUPPORT. Tests of the model against the vectors of `95_test_vectors.md` and words written out from
`30_encoding.md`, and for every obligation with hypotheses a state that meets them. Every expected
value is the spec's, none is the model's own answer. -/

namespace Sys2Proof.Tests
open Sys2Proof Sys2Proof.Machine

/-! ### Small states -/

/-- The store of V-INIT-5 (`95_test_vectors.md` section 1). -/
def storeCI : CalStore := #v[
  .bits16 0x1234, .bits16 0x5678, .bits8 0x9A,
  .bits16 0x2211, .bits16 0x4433, .bits8 0x55, .bits16 0x7766, .bits16 0x9988,
  .bits8 0xAA, .bits8 0xBB, .bits16 0xDDCC, .bits16 0xFFEE, .bits8 0x01,
  .bits12 0x2C5, .bits12 0x3FA, .bits8 0x00, .bits8 0x2D, .bits8 0x14, .bits8 0x78, .bits8 0x9C]

/-- A handle with the configured address `a` whose address query and release return. -/
def prompt (a : Byte) : TransportHandle := ⟨a, true, true⟩
/-- A handle at 0x76 whose address query never returns. -/
def muteAddress : TransportHandle := ⟨0x76, false, true⟩
/-- A handle with the configured address `a` whose release never returns. -/
def muteRelease (a : Byte) : TransportHandle := ⟨a, true, false⟩

/-- The block state of the vectors' VALID block. -/
def validBlock : BlockState := ⟨.valid, some (prompt 0x76), some 0x76, some storeCI⟩
/-- The block state after a failed INIT. -/
def failedBlock : BlockState := ⟨.failed, none, none, none⟩
/-- The block state after DISPOSE. -/
def disposedBlock : BlockState := ⟨.disposed, none, none, none⟩

/-- The machine after reset but for the block state, the handle presented and the answers to come. -/
def machine (b : BlockState) (tp : Option TransportHandle) (answers : List Answer) : State :=
  { State.reset with block := b, hostTp := tp, answers := answers }

/-- The VALID block of the vectors. -/
def valid (answers : List Answer) : State := machine validBlock none answers

/-- The block after reset, with a handle presented whose configured address is `a`. -/
def fresh (a : Byte) (answers : List Answer) : State := machine .reset (some (prompt a)) answers

/-- A write is taken. -/
def ack : Answer := .returns 0 0
/-- A one-byte read returns `b`. -/
def byte (b : Byte) : Answer := .returns b 0

/-- `s` with its inputs. -/
def withInputs (s : State) (inputs : List HostInput) : State := { s with inputs := inputs }

/-- The observation of one command (`20_memory.md` R70). -/
def observed : Result → Option (List Event × List Response × BlockState)
  | .next t => some (t.trace, t.responses, t.block)
  | .fault _ => none
  | .refused _ => none

/-- The outcome is a next state. -/
def goesOn : Result → Bool
  | .next _ => true
  | .fault _ => false
  | .refused _ => false

/-- The next `n` answers all return. -/
def answersReturn (s : State) (n : Nat) : Bool :=
  (List.range n).all fun k =>
    match s.answer k with
    | .returns _ _ => true
    | .faults => false
    | .never => false

theorem returning_of_answersReturn {s : State} {n : Nat} (h : answersReturn s n = true) :
    s.Returning n := by
  intro k hk
  have hk' := List.all_eq_true.mp h k (List.mem_range.mpr hk)
  rcases answer_cases s k with ha | ha | ha
  · exact ⟨_, _, ha⟩
  · simp [ha] at hk'
  · simp [ha] at hk'

/-! ### WellFormed refuses an ill-formed operand (R206) -/

theorem test_wellFormed_refuses_setMode_two : (Instr.setMode 2).wellFormed = false := by decide
theorem test_wellFormed_admits_setMode_one : (Instr.setMode 1).wellFormed = true := by decide
theorem test_wellFormed_refuses_readCal_twenty : (Instr.readCal 20).wellFormed = false := by decide
theorem test_wellFormed_admits_readCal_nineteen : (Instr.readCal 19).wellFormed = true := by decide

/-! ### One word for every command, bit by bit from R90 and R92: OP, A, B -/

theorem test_decode_init : decode 0b00000001_00000000_00000000 = .command .init := by decide
theorem test_decode_dispose : decode 0b00000010_00000000_00000000 = .command .dispose := by decide
theorem test_decode_read8 : decode 0b00010000_01110100_00000000 = .command (.read8 0x74) := by decide
theorem test_decode_read16 :
    decode 0b00010001_11101001_00000000 = .command (.read16 0xE9) := by decide
theorem test_decode_write8 :
    decode 0b00010010_01110010_00000101 = .command (.write8 0x72 0x05) := by decide
theorem test_decode_setMode : decode 0b00100000_00000001_00000000 = .command (.setMode 1) := by decide
theorem test_decode_setOsrsT :
    decode 0b00100001_00000010_00000000 = .command (.setOsrsT 2) := by decide
theorem test_decode_setOsrsP :
    decode 0b00100010_00000101_00000000 = .command (.setOsrsP 5) := by decide
theorem test_decode_setOsrsH :
    decode 0b00100011_00000001_00000000 = .command (.setOsrsH 1) := by decide
theorem test_decode_softReset : decode 0b00100100_00000000_00000000 = .command .softReset := by decide
theorem test_decode_getMode : decode 0b00100101_00000000_00000000 = .command .getMode := by decide
theorem test_decode_hasNewData :
    decode 0b00100110_00000000_00000000 = .command .hasNewData := by decide
theorem test_decode_readAdcT : decode 0b00110000_00000000_00000000 = .command .readAdcT := by decide
theorem test_decode_readAdcP : decode 0b00110001_00000000_00000000 = .command .readAdcP := by decide
theorem test_decode_readAdcH : decode 0b00110010_00000000_00000000 = .command .readAdcH := by decide
theorem test_decode_readCal :
    decode 0b01000000_00010011_00000000 = .command (.readCal 19) := by decide

/-- V-ENC-1 to V-ENC-6: unassigned opcodes and nonzero reserved fields. -/
theorem test_decode_illegal_words :
    decode 0x000000 = .illegalCommand ∧ decode 0xFFFFFF = .illegalCommand ∧
    decode 0x410000 = .illegalCommand ∧ decode 0x100001 = .illegalCommand ∧
    decode 0x250100 = .illegalCommand ∧ decode 0x010001 = .illegalCommand := by decide

/-- An operand the form admits decodes, whatever the command thinks of it (V-ENC-8, V-ENC-10). -/
theorem test_decode_refused_operands :
    decode 0x200700 = .command (.setMode 7) ∧ decode 0x21FF00 = .command (.setOsrsT 255) := by decide

/-- The host's view of the decoder, on a legal and an illegal word. -/
theorem test_decodeTableWord : decodeTableWord 24 0x12FFFF = some (.write8 0xFF 0xFF) ∧
    decodeTableWord 24 0x410000 = none := by decide

/-! ### Steps from a word -/

/-- The first command after reset: with no handle presented INIT answers ARGUMENT (V-INIT-1). -/
theorem test_step_first_word_after_reset :
    observed (step (State.reset.withFetchWord 24 0x010000)) =
      some ([], [⟨.argument, 0⟩], failedBlock) := by decide

/-- V-ENC-4 on a VALID block. -/
theorem test_step_illegal_word : observed (step ((valid []).withFetchWord 24 0x100001)) =
    some ([], [⟨.illegalCommand, 0x100001⟩], validBlock) := by decide

/-- V-ERR-4 and V-ERR-5: the lifecycle is checked before the operand, the word before both. -/
theorem test_step_check_order :
    observed (step ((machine disposedBlock none []).withFetchWord 24 0x200700)) =
      some ([], [⟨.disposed, 0⟩], disposedBlock) ∧
    observed (step ((machine disposedBlock none []).withFetchWord 24 0x100001)) =
      some ([], [⟨.illegalCommand, 0x100001⟩], disposedBlock) := by decide

/-- R223: a block reset gives the values of R52. -/
theorem test_step_blockReset :
    observed (step (withInputs (machine failedBlock none []) [.blockReset])) =
      some ([], [], ⟨.uninit, none, none, none⟩) := by decide

/-! ### INIT and DISPOSE -/

/-- The answers to the loader's reads of T1 to P4. -/
def answersFirst : List Answer := [
  ack, .returns 0x34 0x12, ack, .returns 0x78 0x56, ack, byte 0x9A,
  ack, .returns 0x11 0x22, ack, .returns 0x33 0x44, ack, byte 0x55, ack, .returns 0x66 0x77]
/-- The answers to the loader's reads of P5 to P10. -/
def answersSecond : List Answer := [
  ack, .returns 0x88 0x99, ack, byte 0xAA, ack, byte 0xBB, ack, .returns 0xCC 0xDD,
  ack, .returns 0xEE 0xFF, ack, byte 0x01]
/-- The answers to the loader's reads of H1 to H7; the second read of 0xE2 answers `second`. -/
def answersThird (second : Byte) : List Answer := [
  ack, byte 0x2C, ack, byte 0xA5, ack, byte 0x3F, ack, byte second,
  ack, byte 0x00, ack, byte 0x2D, ack, byte 0x14, ack, byte 0x78, ack, byte 0x9C]
/-- The device's answers to an INIT over the calibration image of `95_test_vectors.md` section 1. -/
def answersCI (second : Byte) : List Answer :=
  ack :: byte 0x61 :: (answersFirst ++ answersSecond ++ answersThird second)

/-- The loader events of V-INIT-5 for T1 to P4. -/
def eventsFirst : List Event := [
  .wrB 0xE9, .rdN [0x34, 0x12], .wrB 0x8A, .rdN [0x78, 0x56], .wrB 0x8C, .rdB 0x9A,
  .wrB 0x8E, .rdN [0x11, 0x22], .wrB 0x90, .rdN [0x33, 0x44], .wrB 0x92, .rdB 0x55,
  .wrB 0x94, .rdN [0x66, 0x77]]
/-- The loader events of V-INIT-5 for P5 to P10. -/
def eventsSecond : List Event := [
  .wrB 0x96, .rdN [0x88, 0x99], .wrB 0x99, .rdB 0xAA, .wrB 0x98, .rdB 0xBB,
  .wrB 0x9C, .rdN [0xCC, 0xDD], .wrB 0x9E, .rdN [0xEE, 0xFF], .wrB 0xA0, .rdB 0x01]
/-- The loader events of V-INIT-5 for H1 to H7. -/
def eventsThird : List Event := [
  .wrB 0xE3, .rdB 0x2C, .wrB 0xE2, .rdB 0xA5, .wrB 0xE1, .rdB 0x3F, .wrB 0xE2, .rdB 0xA5,
  .wrB 0xE4, .rdB 0x00, .wrB 0xE5, .rdB 0x2D, .wrB 0xE6, .rdB 0x14, .wrB 0xE7, .rdB 0x78,
  .wrB 0xE8, .rdB 0x9C]
/-- The 44 loader events of V-INIT-5. -/
def loaderEvents : List Event := eventsFirst ++ eventsSecond ++ eventsThird
/-- Those events behind the address query and the chip-ID read. -/
def initEvents (a : Byte) (loader : List Event) : List Event :=
  .addr a :: .wrB 0xD0 :: .rdB 0x61 :: loader

/-- V-INIT-5. -/
theorem test_init_success : observed (exec .init (fresh 0x77 (answersCI 0xA5))) =
    some (initEvents 0x77 loaderEvents, [⟨.ok, 0⟩],
      ⟨.valid, some (prompt 0x77), some 0x77, some storeCI⟩) := by decide

/-- V-INIT-10: each nibble pair uses its own read of the shared byte. -/
theorem test_init_shared_byte_read_twice :
    ((observed (exec .init (fresh 0x76 (answersCI 0x5A)))).bind fun o => o.2.2.cal).map
      (fun store => (store[13], store[14])) = some (.bits12 0x2C5, .bits12 0x3F5) := by decide

/-- E4 at the edges of the range, E5 and V-INIT-4. -/
theorem test_init_failures :
    observed (exec .init (fresh 0x75 [])) =
      some ([.addr 0x75, .rel], [⟨.range, 0x75⟩], failedBlock) ∧
    observed (exec .init (fresh 0x78 [ack, byte 0x60])) =
      some ([.addr 0x78, .rel], [⟨.range, 0x78⟩], failedBlock) ∧
    observed (exec .init (fresh 0x76 [ack, byte 0xE1])) =
      some ([.addr 0x76, .wrB 0xD0, .rdB 0xE1, .rel], [⟨.identity, 0xE1⟩], failedBlock) ∧
    observed (exec .init (fresh 0x76 [.faults])) =
      some ([.addr 0x76, .wrBFault 0xD0, .rel], [⟨.transport, 0⟩], failedBlock) := by decide

/-- V-INIT-6: a fault of the last primitive, the 46th. -/
theorem test_init_fault_at_last_read :
    observed (exec .init (fresh 0x76 ((answersCI 0xA5).take 45 ++ [.faults]))) =
      some (initEvents 0x76 (loaderEvents.take 43 ++ [.rdBFault, .rel]),
        [⟨.transport, 0⟩], failedBlock) := by decide

/-- V-INIT-7 to V-INIT-9. -/
theorem test_init_refused :
    observed (exec .init (valid [])) = some ([], [⟨.state, 1⟩], validBlock) ∧
    observed (exec .init (machine failedBlock none [])) =
      some ([], [⟨.state, 2⟩], failedBlock) ∧
    observed (exec .init (machine disposedBlock none [])) =
      some ([], [⟨.disposed, 0⟩], disposedBlock) := by decide

/-- V-DISP-1 to V-DISP-4. -/
theorem test_dispose :
    observed (exec .dispose (valid [])) = some ([.rel], [⟨.ok, 0⟩], disposedBlock) ∧
    observed (exec .dispose (machine disposedBlock none [])) =
      some ([], [⟨.ok, 0⟩], disposedBlock) ∧
    observed (exec .dispose State.reset) = some ([], [⟨.ok, 0⟩], disposedBlock) ∧
    observed (exec .dispose (machine failedBlock none [])) =
      some ([], [⟨.ok, 0⟩], disposedBlock) := by decide

/-- R240: an address query or a release that never returns leaves INIT and DISPOSE without a step. -/
theorem test_silent_handle :
    exec .init (machine .reset (some muteAddress) []) = .fault .primitiveNeverReturns ∧
    exec .init (machine .reset (some (muteRelease 0x75)) []) = .fault .primitiveNeverReturns ∧
    exec .dispose (machine { validBlock with tp := some (muteRelease 0x76) } none []) =
      .fault .primitiveNeverReturns := ⟨rfl, rfl, rfl⟩

/-! ### The register commands (section 3.3) -/

/-- V-R8-1, V-R8-4 and V-R8-5. -/
theorem test_read8 :
    observed (exec (.read8 0x74) (valid [ack, byte 0x5B])) =
      some ([.wrB 0x74, .rdB 0x5B], [⟨.ok, 0x5B⟩], validBlock) ∧
    observed (exec (.read8 0x74) (valid [.faults])) =
      some ([.wrBFault 0x74], [⟨.transport, 0⟩], validBlock) ∧
    observed (exec (.read8 0x74) (valid [ack, .faults])) =
      some ([.wrB 0x74, .rdBFault], [⟨.transport, 0⟩], validBlock) := by decide

/-- V-ERR-1 to V-ERR-3. -/
theorem test_read8_refused :
    observed (exec (.read8 0x74) State.reset) = some ([], [⟨.state, 0⟩], BlockState.reset) ∧
    observed (exec (.read8 0x74) (machine failedBlock none [])) =
      some ([], [⟨.state, 2⟩], failedBlock) ∧
    observed (exec (.read8 0x74) (machine disposedBlock none [])) =
      some ([], [⟨.disposed, 0⟩], disposedBlock) := by decide

/-- V-R16-1 and V-R16-2: the first byte is the least significant. -/
theorem test_read16_little_endian :
    observed (exec (.read16 0xE9) (valid [ack, .returns 0x34 0x12])) =
      some ([.wrB 0xE9, .rdN [0x34, 0x12]], [⟨.ok, 0x1234⟩], validBlock) ∧
    observed (exec (.read16 0x00) (valid [ack, .returns 0x00 0x80])) =
      some ([.wrB 0x00, .rdN [0x00, 0x80]], [⟨.ok, 0x8000⟩], validBlock) := by decide

/-- V-R16-5. -/
theorem test_read16_fault : observed (exec (.read16 0xE9) (valid [ack, .faults])) =
    some ([.wrB 0xE9, .rdNFault 2], [⟨.transport, 0⟩], validBlock) := by decide

/-- V-W8-1 and V-W8-4. -/
theorem test_write8 :
    observed (exec (.write8 0x72 0x05) (valid [ack])) =
      some ([.wrN [0x72, 0x05]], [⟨.ok, 0⟩], validBlock) ∧
    observed (exec (.write8 0x74 0xFF) (valid [.faults])) =
      some ([.wrNFault [0x74, 0xFF]], [⟨.transport, 0⟩], validBlock) := by decide

/-! ### The configuration commands (section 3.4) -/

/-- V-MODE-3 and V-MODE-7. -/
theorem test_setMode :
    observed (exec (.setMode 1) (valid [ack, byte 0x5F, ack])) =
      some ([.wrB 0x74, .rdB 0x5F, .wrN [0x74, 0x5D]], [⟨.ok, 0⟩], validBlock) ∧
    observed (exec (.setMode 1) (valid [ack, byte 0x00, .faults])) =
      some ([.wrB 0x74, .rdB 0x00, .wrNFault [0x74, 0x01]], [⟨.transport, 0⟩], validBlock) := by
  decide

/-- V-MODE-5 and V-MODE-6. -/
theorem test_setMode_refused :
    observed (exec (.setMode 2) (valid [])) = some ([], [⟨.illegalOperand, 0x02⟩], validBlock) ∧
    observed (exec (.setMode 0xFF) (valid [])) =
      some ([], [⟨.illegalOperand, 0xFF⟩], validBlock) := by decide

/-- V-OT-1, the source's own example E1, and V-OT-2, where the level is clamped. -/
theorem test_setOsrsT :
    observed (exec (.setOsrsT 2) (valid [ack, byte 0xFF, ack])) =
      some ([.wrB 0x74, .rdB 0xFF, .wrN [0x74, 0x5F]], [⟨.ok, 0⟩], validBlock) ∧
    observed (exec (.setOsrsT 7) (valid [ack, byte 0x00, ack])) =
      some ([.wrB 0x74, .rdB 0x00, .wrN [0x74, 0xA0]], [⟨.ok, 0⟩], validBlock) := by decide

/-- V-OT-5: after a fault of the read no write is issued. -/
theorem test_setOsrsT_fault : observed (exec (.setOsrsT 2) (valid [ack, .faults, ack])) =
    some ([.wrB 0x74, .rdBFault], [⟨.transport, 0⟩], validBlock) := by decide

/-- V-OP-2 and V-OP-4. -/
theorem test_setOsrsP :
    observed (exec (.setOsrsP 3) (valid [ack, byte 0xFF, ack])) =
      some ([.wrB 0x74, .rdB 0xFF, .wrN [0x74, 0xEF]], [⟨.ok, 0⟩], validBlock) ∧
    observed (exec (.setOsrsP 0xFF) (valid [ack, byte 0x03, ack])) =
      some ([.wrB 0x74, .rdB 0x03, .wrN [0x74, 0x17]], [⟨.ok, 0⟩], validBlock) := by decide

/-- V-OH-1 and V-OH-3. -/
theorem test_setOsrsH :
    observed (exec (.setOsrsH 1) (valid [ack, byte 0xFF, ack])) =
      some ([.wrB 0x72, .rdB 0xFF, .wrN [0x72, 0xF9]], [⟨.ok, 0⟩], validBlock) ∧
    observed (exec (.setOsrsH 200) (valid [ack, byte 0x00, ack])) =
      some ([.wrB 0x72, .rdB 0x00, .wrN [0x72, 0x05]], [⟨.ok, 0⟩], validBlock) := by decide

/-- V-RST-1 and V-RST-2. -/
theorem test_softReset :
    observed (exec .softReset (valid [ack])) =
      some ([.wrN [0xE0, 0xB6]], [⟨.ok, 0⟩], validBlock) ∧
    observed (exec .softReset (valid [.faults])) =
      some ([.wrNFault [0xE0, 0xB6]], [⟨.transport, 0⟩], validBlock) := by decide

/-- V-ND-2 and V-ND-3: bit 7 alone, against the rejected variants of E9. -/
theorem test_hasNewData :
    observed (exec .hasNewData (valid [ack, byte 0x7F])) =
      some ([.wrB 0x1D, .rdB 0x7F], [⟨.ok, 0⟩], validBlock) ∧
    observed (exec .hasNewData (valid [ack, byte 0x81])) =
      some ([.wrB 0x1D, .rdB 0x81], [⟨.ok, 1⟩], validBlock) := by decide

/-- V-GM-1 and V-GM-4: the raw value, a value outside the enumeration included. -/
theorem test_getMode :
    observed (exec .getMode (valid [ack, byte 0x55])) =
      some ([.wrB 0x74, .rdB 0x55], [⟨.ok, 1⟩], validBlock) ∧
    observed (exec .getMode (valid [ack, byte 0xFF])) =
      some ([.wrB 0x74, .rdB 0xFF], [⟨.ok, 3⟩], validBlock) := by decide

/-! ### Measurement and calibration (section 3.5) -/

/-- V-ADC-1, the source's own example E3, and V-ADC-4. -/
theorem test_readAdcT :
    observed (exec .readAdcT (valid [ack, byte 0x80, ack, byte 0x00, ack, byte 0x00])) =
      some ([.wrB 0x22, .rdB 0x80, .wrB 0x23, .rdB 0x00, .wrB 0x24, .rdB 0x00],
        [⟨.ok, 0x80000⟩], validBlock) ∧
    observed (exec .readAdcT (valid [ack, byte 0x00, ack, byte 0x00, ack, byte 0xF0])) =
      some ([.wrB 0x22, .rdB 0x00, .wrB 0x23, .rdB 0x00, .wrB 0x24, .rdB 0xF0],
        [⟨.ok, 0x0000F⟩], validBlock) := by decide

/-- V-ADC-13. -/
theorem test_readAdcT_fault :
    observed (exec .readAdcT (valid [ack, byte 0x00, ack, .faults, ack, byte 0x00])) =
      some ([.wrB 0x22, .rdB 0x00, .wrB 0x23, .rdBFault], [⟨.transport, 0⟩], validBlock) := by decide

/-- V-ADC-6. -/
theorem test_readAdcP :
    observed (exec .readAdcP (valid [ack, byte 0x12, ack, byte 0x34, ack, byte 0x56])) =
      some ([.wrB 0x1F, .rdB 0x12, .wrB 0x20, .rdB 0x34, .wrB 0x21, .rdB 0x56],
        [⟨.ok, 0x12345⟩], validBlock) := by decide

/-- V-ADC-8 and V-ADC-10. -/
theorem test_readAdcH :
    observed (exec .readAdcH (valid [ack, byte 0x12, ack, byte 0x34])) =
      some ([.wrB 0x25, .rdB 0x12, .wrB 0x26, .rdB 0x34], [⟨.ok, 0x1234⟩], validBlock) ∧
    observed (exec .readAdcH (valid [ack, byte 0x00, ack, byte 0x80])) =
      some ([.wrB 0x25, .rdB 0x00, .wrB 0x26, .rdB 0x80], [⟨.ok, 0x0080⟩], validBlock) := by decide

/-- V-CAL-2, V-CAL-4 and V-CAL-5: raw bits, no sign. -/
theorem test_readCal :
    observed (exec (.readCal 2) (valid [])) = some ([], [⟨.ok, 0x9A⟩], validBlock) ∧
    observed (exec (.readCal 14) (valid [])) = some ([], [⟨.ok, 0x3FA⟩], validBlock) ∧
    observed (exec (.readCal 19) (valid [])) = some ([], [⟨.ok, 0x9C⟩], validBlock) := by decide

/-- V-CAL-6. -/
theorem test_readCal_refused : observed (exec (.readCal 20) (valid [])) =
    some ([], [⟨.illegalOperand, 0x14⟩], validBlock) := by decide

/-- The signed views of `95_test_vectors.md` section 1: T1, T3, P5, H1, H7. -/
theorem test_signedView :
    [0, 2, 7, 13, 19].map (fun i => (signedView Config.defaultParams storeCI i).toInt) =
      [4660, -102, -26232, 709, -100] := by decide

/-! ### The assembler, the runner and the reference device -/

/-- Lines of `95_test_vectors.md` section 3.1, with what R104 says of case, blanks and comments. -/
theorem test_assemble :
    assembleLine "SET_OSRS_T X2" = .word 0x210200 ∧
    assembleLine "  set_osrs_h x1 ; humidity" = .word 0x230100 ∧
    assembleLine "READ_CAL T1" = .word 0x400000 ∧
    assembleLine "WRITE8 0x72, 5" = .word 0x127205 ∧
    assembleProgram ["INIT", "; start", "READ8 0x74"] = some [0x010000, 0x107400] ∧
    assembleLine "; nothing" = .blank ∧ assembleLine "NOP" = .malformed := by decide

/-- The end of program P3: the runner stops after the first response that is not OK (R231). -/
theorem test_runner_stops :
    (match runProgram none [0x020000, 0x107400, 0x020000] 0 (valid []) with
      | .next e => some (e.index, e.state.responses)
      | .fault _ => none
      | .refused _ => none) = some (2, [⟨.ok, 0⟩, ⟨.disposed, 0⟩]) := by decide

/-- The field independence vector of section 3.4: SET_OSRS_P X4, SET_MODE FORCED, SET_OSRS_T X8,
SET_OSRS_P X1. -/
def fieldCommands : List Instr := [.setOsrsP 3, .setMode 1, .setOsrsT 4, .setOsrsP 1]

/-- The events of that vector: it writes 0x0C, 0x0D, 0x8D, 0x85 in turn. -/
def fieldEvents : List Event :=
  [.wrB 0x74, .rdB 0x00, .wrN [0x74, 0x0C], .wrB 0x74, .rdB 0x0C, .wrN [0x74, 0x0D],
   .wrB 0x74, .rdB 0x0D, .wrN [0x74, 0x8D], .wrB 0x74, .rdB 0x8D, .wrN [0x74, 0x85]]

/-- The answers of the reference device in that vector. -/
def fieldAnswers : List Answer :=
  [ack, byte 0x00, ack, ack, byte 0x0C, ack, ack, byte 0x0D, ack, ack, byte 0x8D, ack]

theorem test_field_independence :
    observed (execAll fieldCommands (valid fieldAnswers)) =
      some (fieldEvents, [⟨.ok, 0⟩, ⟨.ok, 0⟩, ⟨.ok, 0⟩, ⟨.ok, 0⟩], validBlock) ∧
    (RefDevice.accepts fieldEvents ⟨[], 0⟩).map (fun d => d.image.read 0x74) = some 0x85 := by decide

/-- The reference device's pointer adds 1 modulo 256 after each byte read (D28). -/
theorem test_refDevice_pointer :
    (RefDevice.accepts [.wrB 0xFF, .rdN [7, 9]] ⟨[(0, 9), (255, 7)], 0⟩).map (·.pointer) =
      some 1 := by decide

/-! ### Witnesses: for every obligation with hypotheses, a state and operands that meet them all -/

/-- A READ8 that completes. -/
def reading : State := valid [ack, byte 0x5B]
/-- Its next input is the word of READ8 0x74. -/
def readingWord : State := withInputs reading [.command 0x107400 none]

theorem reading_goesOn : ∃ t, exec (.read8 0x74) reading = .next t := ⟨_, rfl⟩
theorem reading_ready : reading.Ready := by decide
theorem reading_returning : reading.Returning 2 := returning_of_answersReturn (by decide)

/-- EncodeOfDecodeIsTheWord and OpcodeRowsSelectByFieldsAndAreDisjoint. -/
theorem test_witness_words : decode 0x107400 = .command (.read8 0x74) ∧
    ∃ row ∈ opcodeMap, row.selects 0x107400 = true :=
  ⟨by decide, ⟨.READ8, 0x10, .a, 0x100000, 0xFF00FF⟩, by decide, by decide⟩

/-- IllegalWordIsAnsweredWithItself: an unassigned opcode, a nonzero `B`, a nonzero `A`. -/
theorem test_witness_IllegalWordIsAnsweredWithItself :
    (withInputs reading [.command 0x410000 none]).inputs = .command 0x410000 none :: [] ∧
    decode 0x410000 = .illegalCommand ∧ decode 0x100001 = .illegalCommand ∧
    decode 0x250100 = .illegalCommand := by decide

/-- StepRunsTheDecodedCommand. -/
theorem test_witness_StepRunsTheDecodedCommand :
    readingWord.inputs = .command 0x107400 none :: [] ∧
    decode 0x107400 = .command (.read8 0x74) := by decide

/-- BlockResetStep, with no handle held and with one held. -/
theorem test_witness_BlockResetStep :
    (withInputs State.reset [.blockReset]).inputs = .blockReset :: [] ∧
    (withInputs State.reset [.blockReset]).block.tp = none ∧
    (withInputs reading [.blockReset]).inputs = .blockReset :: [] ∧
    (withInputs reading [.blockReset]).block.tp.isSome = true := by decide

/-- BlockWaitsWithoutInput. -/
theorem test_witness_BlockWaitsWithoutInput : State.reset.inputs = [] := rfl

/-- StepKeepsParametersAndHistory and StepKeepsInvariant: a VALID block that has run INIT's address
query, and READ8 as its next word. -/
theorem test_witness_StepKeepsInvariant :
    (readingWord.record (.addr 0x76)).Inv ∧ ∃ t, step (readingWord.record (.addr 0x76)) = .next t :=
  ⟨by decide, _, rfl⟩

/-- A free answer is never silence (log entry 5). -/
theorem freeAnswer_ne_never (n : Nat) : freeAnswer n ≠ .never := by
  unfold freeAnswer
  split <;> simp

/-- A VALID block that has queried its handle, with READ8 as its next word, a handle beside it and
every answer to come free. -/
def validWord : State :=
  (withInputs (valid []) [.command 0x107400 (some (prompt 0x77))]).record (.addr 0x76)

/-- OnlySilenceOrHeldResetStops: a VALID block with a command word next, and a block reset with no
handle held. -/
theorem test_witness_OnlySilenceOrHeldResetStops :
    (validWord.Inv ∧ (∀ k, validWord.answer k ≠ .never) ∧ validWord.ReleaseReturns ∧
      (∀ w h rest, validWord.inputs = .command w (some h) :: rest → h.Prompt) ∧
      (∀ rest, validWord.inputs = .blockReset :: rest → validWord.block.tp = none)) ∧
    ((withInputs State.reset [.blockReset]).Inv ∧
      (∀ k, (withInputs State.reset [.blockReset]).answer k ≠ .never) ∧
      (withInputs State.reset [.blockReset]).ReleaseReturns ∧
      (∀ w h rest, (withInputs State.reset [.blockReset]).inputs = .command w (some h) :: rest →
        h.Prompt) ∧
      (∀ rest, (withInputs State.reset [.blockReset]).inputs = .blockReset :: rest →
        (withInputs State.reset [.blockReset]).block.tp = none)) := by
  refine ⟨⟨by decide, fun k => freeAnswer_ne_never _, ?_, ?_, ?_⟩,
    by decide, fun k => freeAnswer_ne_never _, ?_, ?_, fun _ _ => rfl⟩
  · intro h hh
    cases hh
    rfl
  · intro w h rest hin
    cases hin
    decide
  · intro rest hin
    cases hin
  · intro h hh
    cases hh
  · intro w h rest hin
    cases hin

/-- LifecycleTransitions: DISPOSE; INIT from UNINIT that succeeds and that fails; INIT from VALID;
another command in VALID and outside it. -/
theorem test_witness_LifecycleTransitions :
    (∃ t, exec .dispose reading = .next t) ∧
    (goesOn (exec .init (fresh 0x77 (answersCI 0xA5))) = true ∧
      (fresh 0x77 (answersCI 0xA5)).block.lifecycle = .uninit) ∧
    (∃ t, exec .init State.reset = .next t) ∧
    ((∃ t, exec .init reading = .next t) ∧ reading.block.lifecycle ≠ .uninit) ∧
    (∃ t, exec (.read8 0x74) reading = .next t) ∧
    ((∃ t, exec (.read8 0x74) State.reset = .next t) ∧ State.reset.block.lifecycle ≠ .valid) :=
  ⟨⟨_, rfl⟩, ⟨by decide, rfl⟩, ⟨_, rfl⟩, ⟨⟨_, rfl⟩, by decide⟩, ⟨_, rfl⟩, ⟨⟨_, rfl⟩, by decide⟩⟩

/-- AdmissionTable: a state for each row, and the three kinds of admitted commands. -/
theorem test_witness_AdmissionTable :
    State.reset.block.lifecycle = .uninit ∧ reading.block.lifecycle = .valid ∧
    (machine failedBlock none []).block.lifecycle = .failed ∧
    (machine disposedBlock none []).block.lifecycle = .disposed ∧
    (∃ t, exec .dispose (machine failedBlock none []) = .next t) ∧
    (∃ t, exec .init State.reset = .next t) ∧ (∃ t, exec (.read8 0x74) reading = .next t) :=
  ⟨rfl, rfl, rfl, rfl, ⟨_, rfl⟩, ⟨_, rfl⟩, ⟨_, rfl⟩⟩

/-- CheckOrder: V-ERR-7, V-ERR-6 and V-ERR-4, and SET_MODE 2 on a VALID block. -/
theorem test_witness_CheckOrder :
    (withInputs State.reset [.command 0x000000 none]).inputs = .command 0x000000 none :: [] ∧
    decode 0x000000 = .illegalCommand ∧
    decode 0x401400 = .command (.readCal 20) ∧ State.reset.block.lifecycle ≠ .valid ∧
    decode 0x200700 = .command (.setMode 7) ∧
    (machine disposedBlock none []).block.lifecycle ≠ .valid ∧
    decode 0x200200 = .command (.setMode 2) ∧ (Instr.setMode 2).wellFormed = false ∧
    reading.block.lifecycle = .valid := by decide

/-- IllegalOperandExactly: the operands next to the legal ones, and a command that completes. -/
theorem test_witness_IllegalOperandExactly : reading.block.lifecycle = .valid ∧
    1 < (2 : Byte).toNat ∧ 19 < (20 : Byte).toNat ∧ ∃ t, exec (.read8 0x74) reading = .next t :=
  ⟨rfl, by decide, by decide, _, rfl⟩

/-- DisposeReleasesAndEndsDisposed: a handle held whose release returns, and none held. -/
theorem test_witness_DisposeReleasesAndEndsDisposed :
    reading.ReleaseReturns ∧ State.reset.ReleaseReturns := by
  constructor <;> intro h hh <;> cases hh
  rfl

/-- DisposeIsIdempotent. -/
theorem test_witness_DisposeIsIdempotent : (machine failedBlock none []).block.tp = none ∧
    ∃ t, exec .dispose reading = .next t := ⟨rfl, _, rfl⟩

/-- InitWithoutTransport: after reset nothing is presented, and INIT is answered with ARGUMENT. -/
theorem test_witness_InitWithoutTransport :
    State.reset.block.lifecycle = .uninit ∧ State.reset.hostTp = none ∧
    ∃ t, exec .init State.reset = .next t ∧
      t.responses = State.reset.responses ++ [⟨.argument, 0⟩] := ⟨rfl, rfl, _, rfl, rfl⟩

/-- ConstructionErrorsComeFromInit: a RANGE at 0x75 and an IDENTITY at 0x76. -/
theorem test_witness_ConstructionErrorsComeFromInit :
    (∃ t, exec .init (fresh 0x75 []) = .next t ∧ t.responses = [] ++ [⟨.range, 0x75⟩]) ∧
    ∃ t, exec .init (fresh 0x76 [ack, byte 0x60]) = .next t ∧
      t.responses = [] ++ [⟨.identity, 0x60⟩] := ⟨⟨_, rfl, rfl⟩, _, rfl, rfl⟩

/-- InitChecksAddressRange: the bytes next to the range and the bytes at its ends. -/
theorem test_witness_InitChecksAddressRange :
    (∀ a ∈ ([0x75, 0x78] : List Byte), (fresh a []).block.lifecycle = .uninit ∧
      (fresh a []).hostTp = some (prompt a) ∧ (prompt a).Prompt ∧ ¬(0x76 ≤ a.toNat ∧ a.toNat ≤ 0x77)) ∧
    (∀ a ∈ ([0x76, 0x77] : List Byte), 0x76 ≤ a.toNat ∧ a.toNat ≤ 0x77 ∧
      goesOn (exec .init (fresh a [.faults])) = true) := by decide

/-- InitChecksIdentity: a reply next to 0x61, and 0x61 itself. -/
theorem test_witness_InitChecksIdentity :
    (fresh 0x77 [ack, byte 0x60]).block.lifecycle = .uninit ∧
    (fresh 0x77 [ack, byte 0x60]).hostTp = some (prompt 0x77) ∧ (prompt 0x77).Prompt ∧
    (fresh 0x77 [ack, byte 0x60]).Returning 2 ∧ (fresh 0x77 [ack, byte 0x60]).byte 1 ≠ 0x61 ∧
    (fresh 0x77 [ack, byte 0x61, .faults]).Returning 2 ∧
    (fresh 0x77 [ack, byte 0x61, .faults]).byte 1 = 0x61 ∧
    ∃ t, exec .init (fresh 0x77 [ack, byte 0x61, .faults]) = .next t :=
  ⟨rfl, rfl, by decide, returning_of_answersReturn (by decide), by decide,
    returning_of_answersReturn (by decide), by decide, _, rfl⟩

/-- The default parameters' 46 frames of INIT. -/
theorem framesInit_default_length : (framesInit Config.defaultParams).length = 46 := by decide

/-- InitStopsAtTransportFault and INIT's frames in SilentPrimitiveLeavesBlockStuck: at the first frame
and at the last. -/
theorem test_witness_InitStopsAtTransportFault :
    (prompt 0x76).Prompt ∧
    (0 < (framesInit Config.defaultParams).length ∧ (fresh 0x76 [.faults]).Returning 0 ∧
      (fresh 0x76 [.faults]).answer 0 = .faults ∧ (fresh 0x76 [.never]).answer 0 = .never) ∧
    (45 < (framesInit Config.defaultParams).length ∧
      (fresh 0x76 ((answersCI 0xA5).take 45 ++ [.faults])).Returning 45 ∧
      (fresh 0x76 ((answersCI 0xA5).take 45 ++ [.faults])).answer 45 = .faults ∧
      (fresh 0x76 ((answersCI 0xA5).take 45 ++ [.faults])).byte 1 = 0x61) :=
  ⟨by decide, ⟨by decide, returning_zero _, rfl, rfl⟩, by decide, returning_of_answersReturn (by decide),
    by decide, by decide⟩

/-- InitSucceeds, InitWritesNoData and LoadedStoreHasTheStatedWidths. -/
theorem test_witness_InitSucceeds :
    (fresh 0x77 (answersCI 0xA5)).block.lifecycle = .uninit ∧
    (fresh 0x77 (answersCI 0xA5)).hostTp = some (prompt 0x77) ∧
    (prompt 0x77).addressReturns = true ∧
    (fresh 0x77 (answersCI 0xA5)).Returning (framesInit Config.defaultParams).length ∧
    (fresh 0x77 (answersCI 0xA5)).byte 1 = 0x61 ∧
    (fresh 0x77 (answersCI 0xA5)).block.cal = none ∧
    goesOn (exec .init (fresh 0x77 (answersCI 0xA5))) = true :=
  ⟨rfl, rfl, rfl, returning_of_answersReturn (by decide), by decide, rfl, by decide⟩

/-- StoreIsReadOnly, with another command and with DISPOSE. -/
theorem test_witness_StoreIsReadOnly : reading.block.lifecycle = .valid ∧
    (∃ t, exec (.read8 0x74) reading = .next t) ∧ ∃ t, exec .dispose reading = .next t :=
  ⟨rfl, ⟨_, rfl⟩, _, rfl⟩

/-- The commands with at most two frames: a VALID block, two answers, a fault at the first frame and
at the second, and a block outside VALID (Read8ReadsOneByte, Read16ReadsLittleEndian,
Write8WritesOneFrame, SoftResetWritesTheResetFrame, GetModeReadsTheRawMode,
HasNewDataIsolatesBitSeven). -/
theorem test_witness_two_frames : reading.Ready ∧ reading.Returning 2 ∧ reading.Returning 1 ∧
    (valid [.faults]).Ready ∧ (valid [.faults]).answer 0 = .faults ∧
    (valid [ack, .faults]).Ready ∧ (valid [ack, .faults]).Returning 1 ∧
    (valid [ack, .faults]).answer 1 = .faults ∧ State.reset.block.lifecycle ≠ .valid :=
  ⟨by decide, reading_returning, returning_of_answersReturn (by decide), by decide, rfl, by decide,
    returning_of_answersReturn (by decide), rfl, by decide⟩

/-- The read-modify-write commands: three answers, a fault at the last frame, and the modes and levels
at the edges of their ranges (SetModePacksTheMode, SetOsrsTPacksTheClampedLevel,
SetOsrsPPacksTheClampedLevel, SetOsrsHPacksTheClampedLevel). -/
theorem test_witness_three_frames : (valid [ack, byte 0xFF, ack]).Ready ∧
    (valid [ack, byte 0xFF, ack]).Returning 3 ∧
    (valid [ack, byte 0xFF, .faults]).Returning 2 ∧
    (valid [ack, byte 0xFF, .faults]).answer 2 = .faults ∧
    (1 : Byte).toNat ≤ 1 ∧ 1 < (2 : Byte).toNat ∧
    ∃ new : Byte, new = ((valid [ack, byte 0xFF, ack]).byte 1 &&& 0x1F) |||
      (BitVec.ofNat 8 (min (255 : Byte).toNat 5) <<< 5) :=
  ⟨by decide, returning_of_answersReturn (by decide), returning_of_answersReturn (by decide), rfl,
    by decide, by decide, _, rfl⟩

/-- Six answers. -/
def sixAnswers : List Answer := [ack, byte 0x80, ack, byte 0x00, ack, byte 0x00]

/-- ReadAdcTAssemblesTwentyBits, ReadAdcPAssemblesTwentyBits and ReadAdcHAssemblesSixteenBits. -/
theorem test_witness_adc : (valid sixAnswers).Ready ∧ (valid sixAnswers).Returning 6 ∧
    (valid sixAnswers).Returning 4 ∧ (valid [ack, byte 0x80, ack, .faults]).Returning 3 ∧
    (valid [ack, byte 0x80, ack, .faults]).answer 3 = .faults :=
  ⟨by decide, returning_of_answersReturn (by decide), returning_of_answersReturn (by decide),
    returning_of_answersReturn (by decide), rfl⟩

/-- ReadCalAnswersRawBits: a constant of each width at indexes 0, 2, 14 and 19, and index 20. -/
theorem test_witness_ReadCalAnswersRawBits : reading.block.lifecycle = .valid ∧
    reading.block.cal = some storeCI ∧ storeCI[0] = .bits16 0x1234 ∧ storeCI[2] = .bits8 0x9A ∧
    storeCI[14] = .bits12 0x3FA ∧ storeCI[19] = .bits8 0x9C ∧ (19 : Byte).toNat < 20 ∧
    19 < (20 : Byte).toNat ∧ ∃ t, exec (.readCal 0) reading = .next t :=
  ⟨rfl, rfl, rfl, rfl, rfl, rfl, by decide, by decide, _, rfl⟩

/-- OneResponsePerCommand, CommandsKeepBlockState, BoundedWorkPerCommand, NothingFollowsAFault and
EveryReadFollowsASelect, with a command that completes and one that faults. -/
theorem test_witness_whole_machine : (∃ t, exec (.read8 0x74) reading = .next t) ∧
    ∃ t, exec (.setMode 1) (valid [ack, .faults]) = .next t := ⟨⟨_, rfl⟩, _, rfl⟩

/-- TransportFaultStopsTheCommand and SilentPrimitiveLeavesBlockStuck: SET_MODE's last frame. -/
theorem test_witness_TransportFaultStopsTheCommand :
    (valid [ack, byte 0, .faults]).Ready ∧ (Instr.setMode 1).wellFormed = true ∧
    2 < (frames (valid [ack, byte 0, .faults]) (.setMode 1)).length ∧
    (valid [ack, byte 0, .faults]).Returning 2 ∧
    (valid [ack, byte 0, .faults]).answer 2 = .faults ∧
    (∃ t, exec (.setMode 1) (valid [ack, byte 0, .faults]) = .next t) ∧
    (valid [ack, byte 0, .never]).Returning 2 ∧ (valid [ack, byte 0, .never]).answer 2 = .never :=
  ⟨by decide, by decide, by decide, returning_of_answersReturn (by decide), rfl, ⟨_, rfl⟩,
    returning_of_answersReturn (by decide), rfl⟩

/-- SilentPrimitiveLeavesBlockStuck, the handle's own calls: the release of DISPOSE, INIT's address
query, and the release of an INIT that fails by its address, by the identity and by a fault. -/
theorem test_witness_SilentPrimitiveLeavesBlockStuck :
    (muteRelease 0x76).releaseReturns = false ∧ muteAddress.addressReturns = false ∧
    (machine .reset (some muteAddress) []).block.lifecycle = .uninit ∧
    ¬(0x76 ≤ (muteRelease 0x78).address.toNat ∧ (muteRelease 0x78).address.toNat ≤ 0x77) ∧
    (machine .reset (some (muteRelease 0x77)) [ack, byte 0x60]).Returning 2 ∧
    (machine .reset (some (muteRelease 0x77)) [ack, byte 0x60]).byte 1 ≠ 0x61 ∧
    (machine .reset (some (muteRelease 0x77)) [.faults]).Returning 0 ∧
    (machine .reset (some (muteRelease 0x77)) [.faults]).answer 0 = .faults :=
  ⟨rfl, rfl, rfl, by decide, returning_of_answersReturn (by decide), by decide, returning_zero _, rfl⟩

/-- SameAnswersSameObservation: two states with one record between them. -/
theorem test_witness_SameAnswersSameObservation :
    reading.block = (reading.record .rel).block ∧ reading.params = (reading.record .rel).params ∧
    reading.hostTp = (reading.record .rel).hostTp ∧
    (∀ k, reading.answer k = (reading.record .rel).answer k) ∧
    ∃ t, exec (.read8 0x74) reading = .next t := ⟨rfl, rfl, rfl, fun _ => rfl, _, rfl⟩

/-- FieldIsolation, ExtractionUndoesPacking and WrittenLevelIsClamped: the largest level in the
topmost field, the largest value of a field, a level at the bound and one past it. -/
theorem test_witness_fields :
    (((5 : Byte).toNat <<< fdOsrsT.shift) &&& (0xFF ^^^ fdOsrsT.mask.toNat) = 0 ∧
      (5 : Byte).toNat <<< fdOsrsT.shift < 256) ∧
    (((7 : Byte).toNat <<< fdOsrsT.shift) &&& (0xFF ^^^ fdOsrsT.mask.toNat) = 0 ∧
      (7 : Byte).toNat <<< fdOsrsT.shift < 256) ∧
    fdOsrsT ∈ [fdOsrsT, fdOsrsP, fdOsrsH] ∧ fdOsrsH ∈ [fdOsrsT, fdOsrsP, fdOsrsH] ∧
    (5 : Byte).toNat ≤ 5 ∧ ¬(6 : Byte).toNat ≤ 5 := by decide

/-- SignedViewExtendsByCalSigned: a constant of each width, signed and unsigned. -/
theorem test_witness_SignedViewExtendsByCalSigned :
    storeCI[(2 : Fin 20)] = .bits8 0x9A ∧ storeCI[(13 : Fin 20)] = .bits12 0x2C5 ∧
    storeCI[(7 : Fin 20)] = .bits16 0x9988 ∧ Config.defaultParams.calSigned[(2 : Fin 20)] = true ∧
    Config.defaultParams.calSigned[(13 : Fin 20)] = false := by decide

/-- FieldIndependenceOnReferenceDevice: the vector of section 3.4, and a SET_OSRS_H alone. -/
theorem test_witness_FieldIndependenceOnReferenceDevice :
    (valid fieldAnswers).Ready ∧ (∀ i ∈ fieldCommands, isFieldWrite i = true) ∧
    Memory.wf [] = true ∧ goesOn (execAll fieldCommands (valid fieldAnswers)) = true ∧
    (RefDevice.accepts fieldEvents ⟨[], 0⟩).isSome = true ∧
    fieldCommands.foldl LastSet.note ⟨none, none, none⟩ = ⟨some 4, some 1, some 1⟩ ∧
    goesOn (execAll [.setOsrsH 1] (valid [ack, byte 0, ack])) = true ∧
    (RefDevice.accepts [.wrB 0x72, .rdB 0, .wrN [0x72, 1]] ⟨[], 0⟩).isSome = true := by decide

end Sys2Proof.Tests
end

/-! SUPPORT. Every way a step can be answered, said once (`stepEnds_of_next`), and what each of them
does to the OPEN parameters and to the history. -/

namespace Sys2Proof.Machine

/-! ### The endings of a step -/

/-- The state in which a word runs: the rest of the queue left, its handle presented. -/
def State.presented (s : State) (rest : List HostInput) (tp : Option TransportHandle) : State :=
  { s with inputs := rest, hostTp := tp }

/-- How a step ends with a next state. -/
inductive StepEnds : State → State → Prop where
  /-- No input has come. -/
  | waited {s : State} (hin : s.inputs = []) : StepEnds s s
  /-- A word that decodes has run to its response. -/
  | ran {s t : State} {w : CommandWord} {tp : Option TransportHandle} {rest : List HostInput}
      {i : Instr} (hin : s.inputs = .command w tp :: rest) (hd : decode w = .command i)
      (he : Ends i (s.presented rest tp) t) : StepEnds s t
  /-- A word that does not decode is answered with itself. -/
  | illegal {s : State} {w : CommandWord} {tp : Option TransportHandle} {rest : List HostInput}
      (hin : s.inputs = .command w tp :: rest) (hd : decode w = .illegalCommand) :
      StepEnds s ((s.presented rest tp).after 0 [] .illegalCommand (w.setWidth 32))
  /-- A block with no handle is reset. -/
  | reset {s : State} {rest : List HostInput} (hin : s.inputs = .blockReset :: rest)
      (htp : s.block.tp = none) : StepEnds s ((s.presented rest s.hostTp).withBlock .reset)

/-- With no input the step changes nothing. -/
theorem step_idle {s : State} (hin : s.inputs = []) : step s = .next s := by
  simp [step, takeInput, hin]

/-- A word that decodes is run as its command. -/
theorem step_command {s : State} {w : CommandWord} {tp : Option TransportHandle}
    {rest : List HostInput} {i : Instr} (hin : s.inputs = .command w tp :: rest)
    (hd : decode w = .command i) : step s = exec i (s.presented rest tp) := by
  simp [step, takeInput, hin, hd, State.presented]

/-- A word that does not decode is answered with ILLEGAL_COMMAND and the word. -/
theorem step_illegalCommand {s : State} {w : CommandWord} {tp : Option TransportHandle}
    {rest : List HostInput} (hin : s.inputs = .command w tp :: rest)
    (hd : decode w = .illegalCommand) : step s =
      .next ((s.presented rest tp).after 0 [] .illegalCommand (w.setWidth 32)) := by
  simp [step, takeInput, hin, hd, State.presented, illegalCommand, raiseError, respond_eq_after]

/-- A block reset is the reset of the block in the state with the input taken. -/
theorem step_blockReset {s : State} {rest : List HostInput}
    (hin : s.inputs = .blockReset :: rest) : step s = resetBlock (s.presented rest s.hostTp) := by
  simp [step, takeInput, hin, State.presented]

/-- A block reset is answered only with no handle held, and then gives the reset values. -/
theorem resetBlock_next {s t : State} (h : resetBlock s = .next t) :
    s.block.tp = none ∧ t = s.withBlock .reset := by
  cases htp : s.block.tp with
  | none =>
    simp only [resetBlock, htp, Host.Outcome.next.injEq] at h
    exact ⟨rfl, h.symm⟩
  | some d => simp [resetBlock, htp] at h

/-- Every way a step can end with a next state. -/
theorem stepEnds_of_next {s t : State} (h : step s = .next t) : StepEnds s t := by
  cases hin : s.inputs with
  | nil =>
    rw [step_idle hin] at h
    cases h
    exact .waited hin
  | cons input rest =>
    cases input with
    | command w tp =>
      cases hd : decode w with
      | command i =>
        rw [step_command hin hd] at h
        exact .ran hin hd (ends_of_next h)
      | illegalCommand =>
        rw [step_illegalCommand hin hd] at h
        cases h
        exact .illegal hin hd
    | blockReset =>
      rw [step_blockReset hin] at h
      obtain ⟨htp, rfl⟩ := resetBlock_next h
      exact .reset hin htp

/-! ### The history a step keeps -/

/-- However a command ends, it has taken answers, recorded events, delivered one response and left
some block state; nothing else has changed. -/
theorem Ends.eq_after {i : Instr} {s t : State} (h : Ends i s t) :
    ∃ b n evs st v, t = (s.withBlock b).after n evs st v := by
  cases h with
  | refused | illegalOperand | constant | completed | faulted => exact ⟨s.block, _, _, _, _, rfl⟩
  | disposed | initAbsent | initRange | initIdentity | initFaulted | initCompleted =>
    exact ⟨_, _, _, _, _, rfl⟩

/-- The OPEN parameters and the history of `s` are kept in `t`: events and at most one response are
added, answers are taken from the front and counted. -/
structure KeepsHistory (s t : State) : Prop where
  params : t.params = s.params
  trace : ∃ evs, t.trace = s.trace ++ evs
  responses : ∃ rs, t.responses = s.responses ++ rs ∧ rs.length ≤ 1
  answers : ∃ n, t.answers = s.answers.drop n ∧ t.drawn = s.drawn + n

/-- A block reset, like waiting, records nothing, answers nothing and takes no answer. -/
theorem keepsHistory_withBlock (s : State) (b : BlockState) : KeepsHistory s (s.withBlock b) where
  params := rfl
  trace := ⟨[], by simp⟩
  responses := ⟨[], by simp⟩
  answers := ⟨0, by simp⟩

/-- A command's end adds its events and its one response and takes its answers. -/
theorem keepsHistory_withBlock_after (s : State) (b : BlockState) (n : Nat) (evs : List Event)
    (st : Status) (v : Value) : KeepsHistory s ((s.withBlock b).after n evs st v) where
  params := rfl
  trace := ⟨evs, rfl⟩
  responses := ⟨[⟨st, v⟩], rfl, Nat.le_refl 1⟩
  answers := ⟨n, rfl, rfl⟩

/-- A refusal, or a command that keeps the block state, is such an end. -/
theorem keepsHistory_after (s : State) (n : Nat) (evs : List Event) (st : Status) (v : Value) :
    KeepsHistory s (s.after n evs st v) := keepsHistory_withBlock_after s s.block n evs st v

/-- Taking the next input is no part of the history. -/
theorem KeepsHistory.of_presented {s t : State} {rest : List HostInput}
    {tp : Option TransportHandle} (h : KeepsHistory (s.presented rest tp) t) : KeepsHistory s t :=
  ⟨h.params, h.trace, h.responses, h.answers⟩

/-- Every ending of a step keeps the parameters and the history. -/
theorem StepEnds.keepsHistory {s t : State} (h : StepEnds s t) : KeepsHistory s t := by
  cases h with
  | waited => exact keepsHistory_withBlock s s.block
  | ran _ _ he =>
    obtain ⟨b, n, evs, st, v, rfl⟩ := he.eq_after
    exact (keepsHistory_withBlock_after _ b n evs st v).of_presented
  | illegal => exact (keepsHistory_after _ 0 [] _ _).of_presented
  | reset => exact (keepsHistory_withBlock _ .reset).of_presented

/-- Settles O10, by the endings of a step: only a command moves the history on, and it does so by its
events, its answers and its one response. -/
theorem stepKeepsParametersAndHistory : Obligations.StepKeepsParametersAndHistory := by
  intro s t h
  obtain ⟨hp, htr, hrs, hans⟩ := (stepEnds_of_next h).keepsHistory
  exact ⟨hp, htr, hrs, hans⟩

end Sys2Proof.Machine

/-! SUPPORT. How the events of a command use the transport, and with it the invariant of a run: it
holds at reset and every step keeps it. -/

namespace Sys2Proof.Machine

/-! ### Handles held along a trace -/

/-- A trace in two parts: the second begins as the first has ended. -/
theorem heldAfter_append (held : Bool) (es fs : List Event) :
    heldAfter held (es ++ fs) = (heldAfter held es).bind fun held' => heldAfter held' fs := by
  induction es generalizing held with
  | nil => rfl
  | cons e es ih => cases held <;> cases e <;> simp [heldAfter, ih]

/-- A completed call leaves the handle held. -/
theorem heldAfter_okEvent (c : BusCall) (b0 b1 : Byte) (es : List Event) :
    heldAfter true (c.okEvent b0 b1 :: es) = heldAfter true es := by cases c <;> rfl

/-- So does a call that faults. -/
theorem heldAfter_faultEvent (c : BusCall) (es : List Event) :
    heldAfter true (c.faultEvent :: es) = heldAfter true es := by cases c <;> rfl

/-- So do completed calls, however many. -/
theorem heldAfter_okEventsFrom (s : State) (k : Nat) (cs : List BusCall) (es : List Event) :
    heldAfter true (okEventsFrom s k cs ++ es) = heldAfter true es := by
  induction cs generalizing k with
  | nil => rfl
  | cons c cs ih => rw [okEventsFrom, List.cons_append, heldAfter_okEvent, ih]

/-! ### The invariant of a run -/

/-- Settles O7: the reset values do not depend on the OPEN parameters. -/
theorem resetBlockState : Obligations.ResetBlockState := ⟨rfl, fun _ => rfl⟩

/-- Settles O11: at reset nothing is held and nothing has been recorded. -/
theorem invariantHoldsAtReset : Obligations.InvariantHoldsAtReset := fun _ => ⟨rfl, rfl⟩

/-- A consistent block in UNINIT is at its reset values (R29, R31, R32). -/
theorem eq_reset_of_consistent {b : BlockState} (h : b.consistent = true)
    (hu : b.lifecycle = .uninit) : b = .reset := by
  obtain ⟨l, tp, a, c⟩ := b
  cases hu
  unfold BlockState.consistent at h
  split at h <;> simp_all [BlockState.reset]

/-- A command's end keeps the invariant when the block it leaves is consistent and its events take
the handle from what the block held to what it holds. -/
theorem State.Inv.withBlock_after {s : State} (hs : s.Inv) {b : BlockState} {n : Nat}
    {evs : List Event} {st : Status} {v : Value} (hb : b.consistent = true)
    (he : heldAfter s.block.tp.isSome evs = some b.tp.isSome) :
    ((s.withBlock b).after n evs st v).Inv := by
  refine ⟨hb, ?_⟩
  rw [after_trace, withBlock_trace, heldAfter_append, hs.2]
  exact he

/-- A command that keeps the block keeps the invariant when its events keep the handle. -/
theorem State.Inv.after {s : State} (hs : s.Inv) {n : Nat} {evs : List Event} {st : Status}
    {v : Value} (he : heldAfter s.block.tp.isSome evs = some s.block.tp.isSome) :
    (s.after n evs st v).Inv := hs.withBlock_after (b := s.block) hs.1 he

/-- However a command ends, it keeps the invariant. -/
theorem Ends.keepsInv {i : Instr} {s t : State} (h : Ends i s t) (hs : s.Inv) : t.Inv := by
  have reset_of_uninit (hu : s.block.lifecycle = .uninit) : s.block = .reset :=
    eq_reset_of_consistent hs.1 hu
  cases h with
  | refused | illegalOperand | constant => exact hs.after rfl
  | completed hr =>
    apply hs.after
    rw [hr.2, ← List.append_nil (okEventsFrom _ _ _), heldAfter_okEventsFrom]
    rfl
  | faulted hr =>
    apply hs.after
    rw [hr.2, heldAfter_okEventsFrom, heldAfter_faultEvent]
    rfl
  | disposed =>
    refine hs.withBlock_after rfl ?_
    cases s.block.tp <;> rfl
  | initAbsent hu => exact hs.withBlock_after (by rw [reset_of_uninit hu]; rfl) rfl
  | initRange hu | initIdentity hu =>
    rw [reset_of_uninit hu]
    refine hs.withBlock_after rfl ?_
    rw [reset_of_uninit hu]
    rfl
  | initFaulted hu =>
    rw [reset_of_uninit hu]
    refine hs.withBlock_after rfl ?_
    rw [reset_of_uninit hu, List.cons_append]
    exact (heldAfter_okEventsFrom ..).trans (heldAfter_faultEvent ..)
  | initCompleted hu _ _ ha =>
    refine hs.withBlock_after (by simp [BlockState.consistent, ha]) ?_
    rw [reset_of_uninit hu, ← List.append_nil (okEventsFrom _ _ _)]
    exact heldAfter_okEventsFrom ..

/-- Taking the next input is no use of the transport. -/
theorem State.Inv.presented {s : State} (hs : s.Inv) (rest : List HostInput)
    (tp : Option TransportHandle) : (s.presented rest tp).Inv := hs

/-- A reset of a block that holds no handle keeps the invariant. -/
theorem State.Inv.withBlock_reset {s : State} (hs : s.Inv) (htp : s.block.tp = none) :
    (s.withBlock .reset).Inv := ⟨rfl, by rw [withBlock_trace, hs.2, htp]; rfl⟩

/-- Settles O12, by the endings of a step: a wait and a refused word record nothing, a reset finds no
handle held, and a command keeps the invariant by its own ending. -/
theorem stepKeepsInvariant : Obligations.StepKeepsInvariant := by
  intro s t hs h
  cases stepEnds_of_next h with
  | waited => exact hs
  | ran _ _ he => exact he.keepsInv (hs.presented _ _)
  | illegal => exact (hs.presented _ _).after rfl
  | reset _ htp => exact (hs.presented _ _).withBlock_reset htp

end Sys2Proof.Machine

/-! SUPPORT. What each kind of command leaves of the lifecycle and of the calibration store. -/

namespace Sys2Proof.Machine

/-! ### Admission -/

theorem kindOf_eq_init {i : Instr} : kindOf i = .init ↔ i = .init := by
  cases i <;> simp [kindOf]

theorem kindOf_eq_dispose {i : Instr} : kindOf i = .dispose ↔ i = .dispose := by
  cases i <;> simp [kindOf]

/-- A refusal is an error (R203). -/
theorem admission_ne_ok {l : Lifecycle} {k : CommandKind} {e : Status} {v : Value}
    (h : admission l k = some (e, v)) : e ≠ .ok := by
  rintro rfl
  cases l <;> cases k <;> cases h

/-- DISPOSE is admitted in every lifecycle state (R203). -/
theorem admission_dispose (l : Lifecycle) : admission l .dispose = none := by cases l <;> rfl

/-- Where it is refused, a command ends with an error and keeps the block. -/
theorem exec_refused {i : Instr} {s : State} {e : Status} {v : Value}
    (h : admission s.block.lifecycle (kindOf i) = some (e, v)) :
    exec i s = .next (s.after 0 [] e v) := by
  obtain ⟨body, hb⟩ := exec_eq_admit i
  rw [hb, admit_refused h]

/-! ### What a kind of command leaves -/

/-- DISPOSE leaves a block that holds nothing (R133, R134). -/
theorem Ends.dispose_eq {s t : State} (h : Ends .dispose s t) :
    t = (s.withBlock ⟨.disposed, none, none, none⟩).after 0
      (if s.block.tp.isSome then [.rel] else []) .ok 0 := by
  cases h with
  | refused h => cases (admission_dispose _).symm.trans h
  | illegalOperand _ hk | completed _ hk | faulted _ hk => cases hk
  | disposed => rfl

/-- A command that is neither INIT nor DISPOSE keeps the block state (R200). -/
theorem Ends.block_of_other {i : Instr} {s t : State} (h : Ends i s t) (hk : kindOf i = .other) :
    t.block = s.block := by
  cases h with
  | refused | illegalOperand | constant | completed | faulted => rfl
  | disposed | initAbsent | initRange | initIdentity | initFaulted | initCompleted => cases hk

/-- Outside UNINIT an INIT is refused. -/
theorem Ends.init_refused {s t : State} (h : Ends .init s t) (hu : s.block.lifecycle ≠ .uninit) :
    ∃ e v, e ≠ .ok ∧ t = s.after 0 [] e v := by
  cases h with
  | refused h => exact ⟨_, _, admission_ne_ok h, rfl⟩
  | illegalOperand _ hk | completed _ hk | faulted _ hk => cases hk
  | initAbsent hu' | initRange hu' | initIdentity hu' | initFaulted hu' | initCompleted hu' =>
    exact absurd hu' hu

/-- From UNINIT an INIT succeeds with the store read off its answers, or fails with an error and
leaves the store as it was (R28, R124, R125). -/
theorem Ends.init_admitted {s t : State} (h : Ends .init s t) (hu : s.block.lifecycle = .uninit) :
    (∃ d n evs, t =
      (s.withBlock ⟨.valid, some d, some d.address, some (storeFrom s)⟩).after n evs .ok 0) ∨
    ∃ b n evs e v, b.lifecycle = .failed ∧ b.cal = s.block.cal ∧ e ≠ .ok ∧
      t = (s.withBlock b).after n evs e v := by
  cases h with
  | refused h => rw [hu] at h; cases h
  | illegalOperand _ hk | completed _ hk | faulted _ hk => cases hk
  | initAbsent =>
    exact .inr ⟨{ s.block with lifecycle := .failed }, _, _, .argument, _, rfl, rfl, by simp, rfl⟩
  | initRange | initIdentity | initFaulted =>
    refine .inr ⟨initFailed s.block, _, _, _, _, rfl, rfl, ?_, rfl⟩
    simp
  | initCompleted => exact .inl ⟨_, _, _, rfl⟩

/-- Settles O14, kind by kind: DISPOSE, INIT from UNINIT and elsewhere, and the others in VALID and
outside it. -/
theorem lifecycleTransitions : Obligations.LifecycleTransitions := by
  intro i s t h
  have he := ends_of_next h
  cases hk : kindOf i with
  | dispose =>
    obtain rfl := kindOf_eq_dispose.mp hk
    obtain rfl := he.dispose_eq
    exact ⟨⟨.ok, 0⟩, rfl, by simp⟩
  | init =>
    obtain rfl := kindOf_eq_init.mp hk
    by_cases hu : s.block.lifecycle = .uninit
    · rcases he.init_admitted hu with ⟨d, n, evs, rfl⟩ | ⟨b, n, evs, e, v, hb, -, hne, rfl⟩
      · exact ⟨⟨.ok, 0⟩, rfl, by simp [hu]⟩
      · exact ⟨⟨e, v⟩, rfl, by simp [hu, hb, hne]⟩
    · obtain ⟨e, v, hne, rfl⟩ := he.init_refused hu
      exact ⟨⟨e, v⟩, rfl, by simp [hu, hne]⟩
  | other =>
    have hi : i ≠ .init := by rintro rfl; cases hk
    have hd : i ≠ .dispose := by rintro rfl; cases hk
    have hb := he.block_of_other hk
    by_cases hv : s.block.lifecycle = .valid
    · obtain ⟨b, n, evs, e, v, rfl⟩ := he.eq_after
      exact ⟨⟨e, v⟩, rfl, by simp_all⟩
    · obtain ⟨e, v, hne, hx⟩ := exec_outsideValid hk hv
      cases hx.symm.trans h
      exact ⟨⟨e, v⟩, rfl, by rcases hne with rfl | rfl <;> simp [hi, hd]⟩

/-! ### The calibration store -/

/-- A constant has the width of the entry it is loaded by (R121). -/
theorem constantFrom_width (s : State) (k : Nat) (e : Config.CalEntry) :
    (constantFrom s k e).width = entryWidth e := by cases e <;> rfl

theorem storeFrom_getElem (s : State) (i : Fin 20) : (storeFrom s)[i] =
    constantFrom s (2 + (framesCalibration s.params.calMap i).length) s.params.calMap[i] := by
  simp [storeFrom]

/-- Settles O29: of the endings of INIT only the success leaves a store. -/
theorem loadedStoreHasTheStatedWidths : Obligations.LoadedStoreHasTheStatedWidths := by
  refine ⟨fun s t store hu hnone h hstore i => ?_, by decide⟩
  rcases (ends_of_next h).init_admitted hu with
    ⟨d, n, evs, rfl⟩ | ⟨b, n, evs, e, v, -, hb, -, rfl⟩
  · obtain rfl : storeFrom s = store := Option.some.inj hstore
    rw [storeFrom_getElem, constantFrom_width]
  · exact absurd (hstore.symm.trans (hb.trans hnone)) (by simp)

/-- Settles O30: in VALID an INIT is refused, and of the other commands DISPOSE alone changes the
block. -/
theorem storeIsReadOnly : Obligations.StoreIsReadOnly := by
  intro i s t hv h
  have he := ends_of_next h
  cases hk : kindOf i with
  | dispose =>
    obtain rfl := kindOf_eq_dispose.mp hk
    rw [he.dispose_eq]
    rfl
  | init =>
    obtain rfl := kindOf_eq_init.mp hk
    obtain ⟨e, v, -, rfl⟩ := he.init_refused (by simp [hv])
    rfl
  | other =>
    have hd : i ≠ .dispose := by rintro rfl; cases hk
    rw [he.block_of_other hk, if_neg hd]

/-- The signed view of a constant: its bits extended by sign or by zero as `CAL_SIGNED` says (R39). -/
theorem signedView_of_constant (p : Config.Params) {store : CalStore} {i : Fin 20} {c : CalValue}
    (h : store[i] = c) :
    signedView p store i = if p.calSigned[i] then c.signExtended else c.raw := by
  rw [signedView, h]

/-- Settles O58, one clause for each width a constant can have. -/
theorem signedViewExtendsByCalSigned : Obligations.SignedViewExtendsByCalSigned := by
  intro p store i
  exact ⟨fun _ => signedView_of_constant p, fun _ => signedView_of_constant p,
    fun _ => signedView_of_constant p⟩

end Sys2Proof.Machine

/-! SUPPORT. The calls of a command as the frames of R98 to R102: a read never stands without the
register select before it. -/

namespace Sys2Proof.Machine

/-! ### Lists of frames -/

/-- The calls are frames of R98 to R100 one after the other: a register write, or a register select
with its read. -/
inductive IsFrames : List BusCall → Prop where
  /-- No frame. -/
  | nil : IsFrames []
  /-- A register write (R99). -/
  | write {cs : List BusCall} (bytes : List Byte) (h : IsFrames cs) :
      IsFrames (.writeBytes bytes :: cs)
  /-- A select and a one-byte read (R98). -/
  | readByte {cs : List BusCall} (r : Byte) (h : IsFrames cs) :
      IsFrames (.writeByte r :: .readByte :: cs)
  /-- A select and a two-byte read (R100). -/
  | readTwoBytes {cs : List BusCall} (r : Byte) (h : IsFrames cs) :
      IsFrames (.writeByte r :: .readTwoBytes :: cs)

theorem IsFrames.append {cs ds : List BusCall} (hc : IsFrames cs) (hd : IsFrames ds) :
    IsFrames (cs ++ ds) := by
  induction hc with
  | nil => exact hd
  | write bytes _ ih => exact ih.write bytes
  | readByte r _ ih => exact ih.readByte r
  | readTwoBytes r _ ih => exact ih.readTwoBytes r

theorem isFrames_framesRead8 (r : Byte) : IsFrames (framesRead8 r) := .readByte r .nil

theorem isFrames_framesRmw (fd : FieldDesc) (v prior : Byte) : IsFrames (framesRmw fd v prior) :=
  .readByte _ (.write _ .nil)

/-- The calls of every command of a VALID block are frames (R102). -/
theorem isFrames_frames (s : State) (i : Instr) : IsFrames (frames s i) := by
  cases i with
  | init | dispose | readCal => exact .nil
  | read8 | getMode | hasNewData => exact isFrames_framesRead8 _
  | read16 => exact .readTwoBytes _ .nil
  | write8 | softReset => exact .write _ .nil
  | setMode | setOsrsT | setOsrsP | setOsrsH => exact isFrames_framesRmw _ _ _
  | readAdcT | readAdcP =>
    exact ((isFrames_framesRead8 _).append (isFrames_framesRead8 _)).append (isFrames_framesRead8 _)
  | readAdcH => exact (isFrames_framesRead8 _).append (isFrames_framesRead8 _)

theorem isFrames_framesConstant (e : Config.CalEntry) : IsFrames (framesConstant e) := by
  cases e with
  | r16 a => exact .readTwoBytes a .nil
  | r8 a => exact isFrames_framesRead8 a
  | nibLo m b | nibHi m b => exact (isFrames_framesRead8 m).append (isFrames_framesRead8 b)

/-- The loader's calls are frames (R121). -/
theorem isFrames_flatMap_framesConstant (es : List Config.CalEntry) :
    IsFrames (es.flatMap framesConstant) := by
  induction es with
  | nil => exact .nil
  | cons e es ih => exact (isFrames_framesConstant e).append ih

/-- INIT's calls are frames (R102). -/
theorem isFrames_framesInit (p : Config.Params) : IsFrames (framesInit p) :=
  (isFrames_framesRead8 _).append (isFrames_flatMap_framesConstant _)

/-! ### Their events -/

/-- In the events of completed frames every read follows its select. -/
theorem readsFollowSelects_okEventsFrom {cs : List BusCall} (h : IsFrames cs) (s : State) (j : Nat) :
    readsFollowSelects false (okEventsFrom s j cs) = true := by
  induction h generalizing j with
  | nil => rfl
  | write _ _ ih => exact ih (j + 1)
  | readByte _ _ ih | readTwoBytes _ _ ih => exact ih (j + 2)

/-- So does it in the events of frames that a fault cuts short, whatever follows without a read. -/
theorem readsFollowSelects_fault {cs : List BusCall} (h : IsFrames cs) (s : State) (j : Nat)
    {k : Nat} (hk : k < cs.length) {es : List Event} (hes : readsFollowSelects false es = true) :
    readsFollowSelects false (okEventsFrom s j (cs.take k) ++ cs[k].faultEvent :: es) = true := by
  induction h generalizing j k with
  | nil => cases hk
  | write _ _ ih =>
    match k with
    | 0 => exact hes
    | k + 1 => exact ih (j + 1) (Nat.lt_of_succ_lt_succ hk)
  | readByte _ _ ih | readTwoBytes _ _ ih =>
    match k with
    | 0 => exact hes
    | 1 => exact hes
    | k + 2 => exact ih (j + 2) (Nat.lt_of_succ_lt_succ (Nat.lt_of_succ_lt_succ hk))

/-- Settles O51, by the endings of a command: its calls are frames, all of them completed or the last
one cut short by a fault. -/
theorem everyReadFollowsASelect : Obligations.EveryReadFollowsASelect := by
  intro i s t h
  cases ends_of_next h with
  | refused | illegalOperand | constant | initAbsent | initRange | initIdentity =>
    exact ⟨_, rfl, rfl⟩
  | completed => exact ⟨_, rfl, readsFollowSelects_okEventsFrom (isFrames_frames s i) s 0⟩
  | faulted _ _ _ hlt => exact ⟨_, rfl, readsFollowSelects_fault (isFrames_frames s i) s 0 hlt rfl⟩
  | disposed => exact ⟨_, rfl, by split <;> rfl⟩
  | initFaulted _ _ _ _ hlt =>
    exact ⟨_, rfl, readsFollowSelects_fault (isFrames_framesInit s.params) s 0 hlt rfl⟩
  | initCompleted =>
    exact ⟨_, rfl, readsFollowSelects_okEventsFrom (isFrames_framesInit s.params) s 0⟩

end Sys2Proof.Machine

/-! SUPPORT. The endings of `Ends` read the other way: each of them is an answer the command gives
(`Ends.exec_eq`), so that a claim about one ending follows from its conditions. -/

namespace Sys2Proof.Machine

/-! ### The frames of a command, all completed or cut short by a fault -/

/-- A command of a VALID block whose frames all complete (R102). -/
theorem exec_completed {i : Instr} {s : State} (hr : s.Ready) (hk : kindOf i = .other)
    (hw : i.wellFormed = true) (hc : ∀ j, i ≠ .readCal j)
    (h : s.Returning (frames s i).length) : exec i s =
      .next (s.after (frames s i).length (okEventsFrom s 0 (frames s i)) .ok (resultOf s i)) := by
  rw [exec_eq_calls hr.1 hk hw hc, runCalls_returning hr.2 h, map_done, deliver_done, respond_moved]

/-- A command of a VALID block stops at the first of its frames to fault (R199, R209). -/
theorem faultsStop_frames {i : Instr} {s : State} (hr : s.Ready) (hk : kindOf i = .other)
    (hw : i.wellFormed = true) : FaultsStop i s (frames s i) := by
  intro k hlt h hf
  have hc : ∀ j, i ≠ .readCal j := by
    rintro j rfl
    cases hlt
  rw [exec_eq_calls hr.1 hk hw hc, runCalls_faults hr.2 hlt h hf, map_raised, deliver_raised,
    respond_moved]

/-- A command that is neither INIT nor DISPOSE is refused outside VALID (R203). -/
theorem refusedOutsideValid_of_other {i : Instr} (s : State) (hk : kindOf i = .other) :
    RefusedOutsideValid i s := fun hv => exec_outsideValid hk hv

/-! ### The frames of INIT -/

section Init
variable {s : State} {h : TransportHandle}

/-- The answers INIT's frames see are those to come when it is issued. -/
theorem initStart_answer (s : State) (h : TransportHandle) (k : Nat) :
    (initStart s h).answer k = s.answer k := rfl

/-- INIT reads another chip's identity, releases the handle and fails (R118, R124). -/
theorem exec_init_identity (hu : s.block.lifecycle = .uninit) (ht : s.hostTp = some h)
    (hp : h.Prompt) (ha : legalAddress h.address = true) (hr : s.Returning 2)
    (hid : s.byte 1 ≠ Config.chipIdValue) :
    exec .init s = .next ((s.withBlock (initFailed s.block)).after 2
      [.addr h.address, .wrB s.params.regChipId, .rdB (s.byte 1), .rel] .identity
      ((s.byte 1).setWidth 32)) := by
  obtain ⟨hq, hrel⟩ := hp
  rw [exec_init_unidentified hu ht hq ha hid,
    runCalls_returning (cs := framesRead8 _) (initStart_held s h) hr, andThen_done,
    initFail_moved s hrel]
  rfl

/-- INIT stops at the first of its frames to fault, releases the handle and fails (R119, R124): the
chip-ID frames come first, whatever the chip, and the loader's only when it is identified. -/
theorem exec_init_faulted {k : Nat} (hu : s.block.lifecycle = .uninit) (ht : s.hostTp = some h)
    (hp : h.Prompt) (ha : legalAddress h.address = true) (hlt : k < (framesInit s.params).length)
    (hr : s.Returning k) (hf : s.answer k = .faults)
    (hid : 2 ≤ k → s.byte 1 = Config.chipIdValue) :
    exec .init s = .next ((s.withBlock (initFailed s.block)).after (k + 1)
      (.addr h.address :: okEventsFrom s 0 ((framesInit s.params).take k) ++
        [(framesInit s.params)[k].faultEvent, .rel]) .transport 0) := by
  obtain ⟨hq, hrel⟩ := hp
  by_cases hc : s.byte 1 = Config.chipIdValue
  · rw [exec_init_identified hu ht hq ha hc, runCalls_faults (initStart_held s h) hlt hr hf,
      andThen_raised, initFail_moved s hrel, okEventsFrom_congr (initStart_answer s h)]
    simp
  · have hk : k < 2 := Nat.lt_of_not_le fun hle => hc (hid hle)
    rw [exec_init_unidentified hu ht hq ha hc,
      runCalls_faults (cs := framesRead8 _) (initStart_held s h) hk hr hf, andThen_raised,
      initFail_moved s hrel, okEventsFrom_congr (initStart_answer s h), framesInit_take hk,
      framesInit_get hk]
    simp

/-- INIT whose frames all complete, with the chip identified (R125). -/
theorem exec_init_completed (hu : s.block.lifecycle = .uninit) (ht : s.hostTp = some h)
    (hq : h.addressReturns = true) (ha : legalAddress h.address = true)
    (hr : s.Returning (framesInit s.params).length) (hid : s.byte 1 = Config.chipIdValue) :
    exec .init s =
      .next ((s.withBlock ⟨.valid, some h, some h.address, some (storeFrom s)⟩).after
        (framesInit s.params).length
        (.addr h.address :: okEventsFrom s 0 (framesInit s.params)) .ok 0) := by
  rw [exec_init_identified hu ht hq ha hid, runCalls_returning (initStart_held s h) hr,
    andThen_done, initDone_moved, okEventsFrom_congr (initStart_answer s h)]

end Init

/-! ### Every ending -/

/-- An ending whose conditions hold is the command's answer. -/
theorem Ends.exec_eq {i : Instr} {s t : State} (h : Ends i s t) : exec i s = .next t := by
  cases h with
  | refused h => exact exec_refused h
  | illegalOperand hv _ hw => exact exec_illegalOperand hv hw
  | constant hv hj hs => exact exec_readCal hv hj hs
  | completed hr hk hw hc h => exact exec_completed hr hk hw hc h
  | faulted hr hk hw hlt h hf => exact faultsStop_frames hr hk hw _ hlt h hf
  | disposed hr => exact exec_dispose hr
  | initAbsent hu ht => exact exec_init_absent hu ht
  | initRange hu ht hp ha => exact exec_init_range hu ht hp ha
  | initIdentity hu ht hp ha hr hid => exact exec_init_identity hu ht hp ha hr hid
  | initFaulted hu ht hp ha hlt hr hf hid => exact exec_init_faulted hu ht hp ha hlt hr hf hid
  | initCompleted hu ht hq ha hr hid => exact exec_init_completed hu ht hq ha hr hid

end Sys2Proof.Machine

/-! SUPPORT. READ16: the 16-bit value of the two bytes received, and the command that answers with
it. -/

namespace Sys2Proof.Machine

/-- The first byte received is the low half, the second the high half (R79). -/
theorem littleEndian_eq_append (b0 b1 : Byte) : littleEndian b0 b1 = b1 ++ b0 := by
  apply BitVec.eq_of_getLsbD_eq
  intro i hi
  simp only [littleEndian, BitVec.getLsbD_or, BitVec.getLsbD_setWidth, BitVec.getLsbD_shiftLeft,
    BitVec.getLsbD_append]
  by_cases hlow : i < 8
  · simp [hlow, hi]
  · simp [hlow, hi, show i - 8 < 16 by omega, BitVec.getLsbD_of_ge b0 i (Nat.le_of_not_lt hlow)]

/-- On naturals it is `b0 | (b1 << 8)` (R79, R11). -/
theorem littleEndian_toNat (b0 b1 : Byte) :
    (littleEndian b0 b1).toNat = b0.toNat ||| (b1.toNat <<< 8) := by
  rw [littleEndian_eq_append, BitVec.toNat_append, Nat.or_comm]

theorem littleEndian_low (b0 b1 : Byte) : (littleEndian b0 b1).extractLsb' 0 8 = b0 := by
  rw [littleEndian_eq_append, BitVec.extractLsb'_append_eq_right]

theorem littleEndian_high (b0 b1 : Byte) : (littleEndian b0 b1).extractLsb' 8 8 = b1 := by
  rw [littleEndian_eq_append, BitVec.extractLsb'_append_eq_left]

/-- Settles O32: READ16 has two frames, a select and a two-byte read, and answers with the bytes of
the second. -/
theorem read16ReadsLittleEndian : Obligations.Read16ReadsLittleEndian := by
  intro s r
  have faults (hr : s.Ready) : FaultsStop (.read16 r) s (frames s (.read16 r)) :=
    faultsStop_frames hr rfl rfl
  refine ⟨rfl, fun hr h => ⟨littleEndian (s.byte 1) (s.byte2 1), littleEndian_toNat _ _,
    littleEndian_low _ _, littleEndian_high _ _, ?_⟩, fun hr hf => ?_, fun hr h hf => ?_,
    refusedOutsideValid_of_other s rfl⟩
  · exact exec_completed hr rfl rfl (fun _ => nofun) h
  · exact faults hr 0 Nat.two_pos (returning_zero s) hf
  · exact faults hr 1 Nat.one_lt_two h hf

end Sys2Proof.Machine

/-! SUPPORT. Faults in the events of a command: only its last call faults, and only INIT and DISPOSE
release a handle. -/

namespace Sys2Proof.Machine

theorem okEvent_isFault (c : BusCall) (b0 b1 : Byte) : (c.okEvent b0 b1).isFault = false := by
  cases c <;> rfl

theorem faultEvent_isFault (c : BusCall) : c.faultEvent.isFault = true := by cases c <;> rfl

theorem okEvent_ne_rel (c : BusCall) (b0 b1 : Byte) : c.okEvent b0 b1 ≠ .rel := by
  cases c <;> exact nofun

theorem faultEvent_ne_rel (c : BusCall) : c.faultEvent ≠ .rel := by cases c <;> exact nofun

/-- Before the first fault completed calls are of no account. -/
theorem faultEndsTrace_okEventsFrom_append (s : State) (k : Nat) (cs : List BusCall)
    (es : List Event) : faultEndsTrace (okEventsFrom s k cs ++ es) = faultEndsTrace es := by
  induction cs generalizing k with
  | nil => rfl
  | cons c cs ih => simp [okEventsFrom, faultEndsTrace, okEvent_isFault, ih]

/-- Events of completed calls hold no fault. -/
theorem faultEndsTrace_okEventsFrom (s : State) (k : Nat) (cs : List BusCall) :
    faultEndsTrace (okEventsFrom s k cs) = true := by
  simpa [faultEndsTrace] using faultEndsTrace_okEventsFrom_append s k cs []

/-- A fault with at most a release after it ends the trace (R65). -/
theorem faultEndsTrace_faultEvent (c : BusCall) {es : List Event} (h : es = [] ∨ es = [.rel]) :
    faultEndsTrace (c.faultEvent :: es) = true := by
  rcases h with rfl | rfl <;> simp [faultEndsTrace, faultEvent_isFault]

/-- No completed call releases the handle. -/
theorem rel_notMem_okEventsFrom (s : State) (k : Nat) (cs : List BusCall) :
    .rel ∉ okEventsFrom s k cs := by
  induction cs generalizing k with
  | nil => exact List.not_mem_nil
  | cons c cs ih =>
    exact List.not_mem_cons_of_ne_of_not_mem (okEvent_ne_rel c _ _).symm (ih (k + 1))

/-- Settles O50, by the endings of a command: its calls complete up to the one that faults, and INIT
adds its release after it. -/
theorem nothingFollowsAFault : Obligations.NothingFollowsAFault := by
  intro i s t h
  cases ends_of_next h with
  | refused | illegalOperand | constant => exact ⟨[], rfl, rfl, fun _ _ => List.not_mem_nil⟩
  | completed =>
    exact ⟨_, rfl, faultEndsTrace_okEventsFrom .., fun _ _ => rel_notMem_okEventsFrom s 0 _⟩
  | faulted =>
    refine ⟨_, rfl, ?_, fun _ _ => ?_⟩
    · rw [faultEndsTrace_okEventsFrom_append]
      exact faultEndsTrace_faultEvent _ (.inl rfl)
    · simp [rel_notMem_okEventsFrom, (faultEvent_ne_rel _).symm]
  | disposed => exact ⟨_, rfl, by split <;> rfl, fun _ hd => absurd rfl hd⟩
  | initAbsent | initRange | initIdentity => exact ⟨_, rfl, rfl, fun hi => absurd rfl hi⟩
  | initFaulted =>
    refine ⟨_, rfl, ?_, fun hi => absurd rfl hi⟩
    exact (faultEndsTrace_okEventsFrom_append ..).trans (faultEndsTrace_faultEvent _ (.inr rfl))
  | initCompleted =>
    exact ⟨_, rfl, faultEndsTrace_okEventsFrom s 0 _, fun hi => absurd rfl hi⟩

end Sys2Proof.Machine

/-! SUPPORT. What a command can see of a state, and that its ending depends on nothing else. -/

namespace Sys2Proof.Machine

/-- The two states look the same to a command: the block, the OPEN parameters, the handle presented
and the answers to come are equal. What was recorded, delivered or queued may differ (R70). -/
structure SameView (s s' : State) : Prop where
  block : s.block = s'.block
  params : s.params = s'.params
  hostTp : s.hostTp = s'.hostTp
  answer : ∀ k, s.answer k = s'.answer k

namespace SameView
variable {s s' : State} (v : SameView s s')
include v

theorem byte_eq (k : Nat) : s.byte k = s'.byte k := by simp [State.byte, v.answer]

theorem byte2_eq (k : Nat) : s.byte2 k = s'.byte2 k := by simp [State.byte2, v.answer]

theorem returning {n : Nat} (h : s.Returning n) : s'.Returning n := fun k hk => by
  simpa [v.answer] using h k hk

theorem lifecycle {l : Lifecycle} (h : s.block.lifecycle = l) : s'.block.lifecycle = l := by
  rwa [← v.block]

theorem ready (h : s.Ready) : s'.Ready := by rwa [State.Ready, ← v.block]

theorem okEventsFrom_eq (k : Nat) (cs : List BusCall) :
    okEventsFrom s k cs = okEventsFrom s' k cs := okEventsFrom_congr v.answer k cs

theorem frames_eq (i : Instr) : frames s i = frames s' i := by
  cases i <;> simp [frames, v.byte_eq, v.params]

theorem resultOf_eq (i : Instr) : resultOf s i = resultOf s' i := by
  cases i <;> simp [resultOf, v.byte_eq, v.byte2_eq]

theorem constantFrom_eq (k : Nat) (e : Config.CalEntry) :
    constantFrom s k e = constantFrom s' k e := by
  cases e <;> simp [constantFrom, v.byte_eq, v.byte2_eq]

theorem storeFrom_eq : storeFrom s = storeFrom s' := by
  simp only [storeFrom, v.params, v.constantFrom_eq]

end SameView

/-- Two states that look the same to a command let it end in the same way: with the same answers
taken, the same events, the same response and the same block state. -/
theorem Ends.sameView {i : Instr} {s s' t : State} (h : Ends i s t) (v : SameView s s') :
    ∃ b n evs st r, t = (s.withBlock b).after n evs st r ∧
      Ends i s' ((s'.withBlock b).after n evs st r) := by
  obtain ⟨block, params, hostTp, inputs, answers, drawn, trace, responses⟩ := s'
  obtain rfl : s.block = block := v.block
  obtain rfl : s.params = params := v.params
  obtain rfl : s.hostTp = hostTp := v.hostTp
  cases h with
  | refused h => exact ⟨s.block, _, _, _, _, rfl, .refused h⟩
  | illegalOperand hv hk hw =>
    exact ⟨s.block, _, _, _, _, rfl, .illegalOperand (v.lifecycle hv) hk hw⟩
  | constant hv hj hs => exact ⟨s.block, _, _, _, _, rfl, .constant (v.lifecycle hv) hj hs⟩
  | completed hr hk hw hc h =>
    refine ⟨s.block, _, _, _, _, rfl, ?_⟩
    rw [v.frames_eq] at h ⊢
    rw [v.okEventsFrom_eq, v.resultOf_eq]
    exact .completed (v.ready hr) hk hw hc (v.returning h)
  | faulted hr hk hw hlt h hf =>
    refine ⟨s.block, _, _, _, _, rfl, ?_⟩
    simp only [v.frames_eq] at hlt ⊢
    rw [v.okEventsFrom_eq]
    rw [v.answer] at hf
    exact .faulted (v.ready hr) hk hw hlt (v.returning h) hf
  | disposed hr => exact ⟨_, _, _, _, _, rfl, .disposed hr⟩
  | initAbsent hu ht => exact ⟨_, _, _, _, _, rfl, .initAbsent (v.lifecycle hu) ht⟩
  | initRange hu ht hp hl => exact ⟨_, _, _, _, _, rfl, .initRange (v.lifecycle hu) ht hp hl⟩
  | initIdentity hu ht hp hl hr hid =>
    refine ⟨_, _, _, _, _, rfl, ?_⟩
    rw [v.byte_eq] at hid ⊢
    exact .initIdentity (v.lifecycle hu) ht hp hl (v.returning hr) hid
  | initFaulted hu ht hp hl hlt hr hf hid =>
    refine ⟨_, _, _, _, _, rfl, ?_⟩
    rw [v.byte_eq] at hid
    rw [v.okEventsFrom_eq]
    rw [v.answer] at hf
    exact .initFaulted (v.lifecycle hu) ht hp hl hlt (v.returning hr) hf hid
  | initCompleted hu ht hq hl hr hid =>
    refine ⟨_, _, _, _, _, rfl, ?_⟩
    rw [v.byte_eq] at hid
    rw [v.okEventsFrom_eq, v.storeFrom_eq]
    exact .initCompleted (v.lifecycle hu) ht hq hl (v.returning hr) hid

/-- Settles O52: the ending the command has from the one state it has from the other too, and an
ending fixes what is appended and the block state after. -/
theorem sameAnswersSameObservation : Obligations.SameAnswersSameObservation := by
  intro i s s' t hb hp ht ha h
  obtain ⟨b, n, evs, st, r, rfl, he⟩ := (ends_of_next h).sameView ⟨hb, hp, ht, ha⟩
  exact ⟨_, evs, ⟨st, r⟩, he.exec_eq, rfl, rfl, rfl, rfl, rfl⟩

end Sys2Proof.Machine

/-! SUPPORT. The opcode map and the command word: which row a word selects, what the decoder makes of
it, and the two round trips. -/

namespace Sys2Proof

/-! ### The row a word selects -/

/-- A row of the opcode map reads a word through its fields: the row's `OP`, and 0 in the fields its
form does not use (R91, R92). -/
theorem selects_iff_fields {row : OpcodeRow} (h : row ∈ opcodeMap) (w : CommandWord) :
    row.selects w = true ↔
      opField w = row.op ∧ (row.form ≠ .ab → bField w = 0) ∧ (row.form = .n → aField w = 0) := by
  obtain ⟨hmatch, hmask⟩ := opcodeMap_match row h
  rw [OpcodeRow.selects, beq_iff_eq, hmatch, hmask]
  cases row.form with
  | n => exact (mask_formN w row.op).trans (by simp [and_comm])
  | a => exact (mask_formA w row.op).trans (by simp)
  | ab => exact (mask_formAB w row.op).trans (by simp)

/-- The `OP` field settles which row can select a word. -/
theorem selects_unique {row row' : OpcodeRow} (h : row ∈ opcodeMap) (h' : row' ∈ opcodeMap)
    {w : CommandWord} (hs : row.selects w = true) (hs' : row'.selects w = true) : row = row' := by
  obtain ⟨hop, -⟩ := (selects_iff_fields h w).mp hs
  obtain ⟨hop', -⟩ := (selects_iff_fields h' w).mp hs'
  exact opcodeMap_op_inj row h row' h' (hop.symm.trans hop')

/-- Settles O3, by the fields each mask asks for and the distinct opcodes of the map. -/
theorem opcodeRowsSelectByFieldsAndAreDisjoint :
    Obligations.OpcodeRowsSelectByFieldsAndAreDisjoint := fun w =>
  ⟨fun _ h => selects_iff_fields h w, fun _ h _ h' => selects_unique h h'⟩

/-! ### What a word decodes to -/

/-- A word that selects a row decodes to the row's command with the word's operand fields (R94). -/
theorem decode_of_selects {row : OpcodeRow} (h : row ∈ opcodeMap) {w : CommandWord}
    (hs : row.selects w = true) :
    decode w = .command (row.mnemonic.command (aField w) (bField w)) := by
  rw [decode]
  cases hf : opcodeMap.find? (·.selects w) with
  | none => exact absurd hs (List.find?_eq_none.mp hf row h)
  | some row' =>
    have hs' : row'.selects w = true := by simpa using List.find?_some hf
    obtain rfl := selects_unique (List.mem_of_find?_eq_some hf) h hs' hs
    rfl

/-- A word that decodes has selected a row, and its command is that row's. -/
theorem selects_of_decode {w : CommandWord} {i : Instr} (hd : decode w = .command i) :
    ∃ row ∈ opcodeMap, row.selects w = true ∧
      i = row.mnemonic.command (aField w) (bField w) := by
  rw [decode] at hd
  cases hf : opcodeMap.find? (·.selects w) with
  | none => simp [hf] at hd
  | some row =>
    simp only [hf, Decoded.command.injEq] at hd
    exact ⟨row, List.mem_of_find?_eq_some hf, by simpa using List.find?_some hf, hd.symm⟩

/-- A word is illegal when it selects no row, and only then (R95). -/
theorem decode_eq_illegalCommand_iff (w : CommandWord) :
    decode w = .illegalCommand ↔ ∀ row ∈ opcodeMap, ¬ row.selects w = true := by
  constructor
  · intro hd row h hs
    cases hd.symm.trans (decode_of_selects h hs)
  · intro hn
    cases hd : decode w with
    | illegalCommand => rfl
    | command i =>
      obtain ⟨row, h, hs, -⟩ := selects_of_decode hd
      exact absurd hs (hn row h)

/-! ### The round trips -/

/-- A command is its mnemonic applied to its operands. -/
theorem command_mnemonic_operands (i : Instr) :
    i.mnemonic.command i.operandA i.operandB = i := by
  cases i <;> rfl

/-- The word of a command selects the row of its mnemonic. -/
theorem selects_encode {row : OpcodeRow} (h : row ∈ opcodeMap) {i : Instr}
    (hm : row.mnemonic = i.mnemonic) : row.selects (encode i) = true := by
  obtain ⟨hb, ha⟩ := opcodeMap_form h hm
  rw [selects_iff_fields h, opcodeMap_op row h, hm]
  exact ⟨opField_assembleFields _ _ _, fun hf => (bField_assembleFields _ _ _).trans (hb hf),
    fun hf => (aField_assembleFields _ _ _).trans (ha hf)⟩

/-- Settles O1: the word of a command selects the row of its mnemonic, and its operand fields give
the operands back. -/
theorem decodeOfEncodeIsTheCommand : Obligations.DecodeOfEncodeIsTheCommand := by
  intro i
  obtain ⟨row, h, hm⟩ := opcodeMap_complete i.mnemonic
  rw [decode_of_selects h (selects_encode h hm), hm, encode, aField_assembleFields,
    bField_assembleFields, command_mnemonic_operands]

/-- Row by row, the command of a row is encoded with the row's opcode and the operands given, when
those its form does not use are 0 (R104). -/
theorem encode_command {row : OpcodeRow} (h : row ∈ opcodeMap) {a b : Byte}
    (hb : row.form ≠ .ab → b = 0) (ha : row.form = .n → a = 0) :
    encode (row.mnemonic.command a b) = assembleFields row.op a b := by
  fin_cases h <;> simp_all [encode, Mnemonic.command, Instr.mnemonic, Mnemonic.op,
    Instr.operandA, Instr.operandB]

/-- Settles O2: the row a word selects fixes every bit of the word, since the fields its form does
not use are 0. -/
theorem encodeOfDecodeIsTheWord : Obligations.EncodeOfDecodeIsTheWord := by
  intro w i hd
  obtain ⟨row, h, hs, rfl⟩ := selects_of_decode hd
  obtain ⟨hop, hb, ha⟩ := (selects_iff_fields h w).mp hs
  rw [encode_command h hb ha, ← hop, assembleFields_fields]

/-- Settles O5: each line assembles to the word of its command, which decodes by the round trip. -/
theorem specWordsAssembleAndDecode : Obligations.SpecWordsAssembleAndDecode :=
  ⟨⟨by decide, decodeOfEncodeIsTheCommand .init⟩,
    ⟨by decide, decodeOfEncodeIsTheCommand .dispose⟩,
    ⟨by decide, decodeOfEncodeIsTheCommand (.read8 0x74)⟩,
    ⟨by decide, decodeOfEncodeIsTheCommand (.read16 0xE9)⟩,
    ⟨by decide, decodeOfEncodeIsTheCommand (.write8 0x72 0x05)⟩,
    ⟨by decide, decodeOfEncodeIsTheCommand (.setMode 1)⟩,
    ⟨by decide, decodeOfEncodeIsTheCommand (.setOsrsP 5)⟩,
    ⟨by decide, decodeOfEncodeIsTheCommand .readAdcT⟩,
    ⟨by decide, decodeOfEncodeIsTheCommand (.readCal 19)⟩⟩

/-! ### Illegal words -/

/-- A row whose `OP` a word has fails to select it just when a field the row's form does not use is
nonzero. -/
theorem not_selects_iff {row : OpcodeRow} (h : row ∈ opcodeMap) {w : CommandWord}
    (hop : opField w = row.op) : ¬ row.selects w = true ↔
      (row.form ≠ .ab ∧ bField w ≠ 0) ∨ (row.form = .n ∧ aField w ≠ 0) := by
  rw [selects_iff_fields h]
  tauto

/-- Illegal words by their fields: an unassigned `OP`, or a nonzero must-be-0 field (R95). -/
theorem decode_eq_illegalCommand_iff_fields (w : CommandWord) : decode w = .illegalCommand ↔
    (∀ m : Mnemonic, opField w ≠ m.op) ∨
    (∃ row ∈ opcodeMap, opField w = row.op ∧
      ((row.form ≠ .ab ∧ bField w ≠ 0) ∨ (row.form = .n ∧ aField w ≠ 0))) := by
  rw [decode_eq_illegalCommand_iff]
  constructor
  · intro hn
    by_cases hm : ∀ m : Mnemonic, opField w ≠ m.op
    · exact .inl hm
    · obtain ⟨m, hop⟩ := not_forall_not.mp hm
      obtain ⟨row, h, rfl⟩ := opcodeMap_complete m
      rw [← opcodeMap_op row h] at hop
      exact .inr ⟨row, h, hop, (not_selects_iff h hop).mp (hn row h)⟩
  · rintro (hm | ⟨row, h, hop, hf⟩) row' h' hs
    all_goals obtain ⟨hop', -⟩ := (selects_iff_fields h' w).mp hs
    · exact hm row'.mnemonic (hop'.trans (opcodeMap_op row' h'))
    · obtain rfl := opcodeMap_op_inj row h row' h' (hop.symm.trans hop')
      exact (not_selects_iff h hop).mpr hf hs

end Sys2Proof

namespace Sys2Proof.Machine

/-- Settles O4: the fields say which words are illegal, and the step on such a word delivers its one
response. -/
theorem illegalWordIsAnsweredWithItself : Obligations.IllegalWordIsAnsweredWithItself :=
  fun _ w _ _ => ⟨decode_eq_illegalCommand_iff_fields w, step_illegalCommand⟩

/-- Settles O6: a word that decodes is run with its input taken and its handle presented. -/
theorem stepRunsTheDecodedCommand : Obligations.StepRunsTheDecodedCommand :=
  fun _ _ _ _ _ => step_command

end Sys2Proof.Machine

/-! SUPPORT. The write frames of WRITE8 and SOFT_RESET, and the fault of any frame on a VALID block. -/

namespace Sys2Proof.Machine

/-- Every command but INIT and DISPOSE stands in the third column of the admission table (R203). -/
theorem kindOf_eq_other {i : Instr} (hi : i ≠ .init) (hd : i ≠ .dispose) : kindOf i = .other := by
  cases h : kindOf i with
  | init => exact absurd (kindOf_eq_init.mp h) hi
  | dispose => exact absurd (kindOf_eq_dispose.mp h) hd
  | other => rfl

/-- Settles O33: WRITE8 has one frame, which completes or faults. -/
theorem write8WritesOneFrame : Obligations.Write8WritesOneFrame := by
  intro s r v
  refine ⟨rfl, fun hr h => ?_, fun hr hf => ?_, refusedOutsideValid_of_other s rfl⟩
  · exact exec_completed hr rfl rfl (fun _ => nofun) h
  · exact faultsStop_frames (i := .write8 r v) hr rfl rfl 0 Nat.one_pos (returning_zero s) hf

/-- SOFT_RESET is WRITE8 of the reset command to the reset register, behind the same lifecycle check
(R101, R168). -/
theorem exec_softReset_eq_write8 (s : State) : exec .softReset s = exec (.write8 0xE0 0xB6) s := rfl

/-- Settles O38: SOFT_RESET is the WRITE8 of the reset frame, and ends as that one does. -/
theorem softResetWritesTheResetFrame : Obligations.SoftResetWritesTheResetFrame := by
  refine ⟨by decide, fun s => ?_⟩
  obtain ⟨-, completed, faulted, refused⟩ := write8WritesOneFrame s 0xE0 0xB6
  rw [RefusedOutsideValid, exec_softReset_eq_write8]
  exact ⟨completed, faulted, rfl, refused⟩

/-- Settles O47: the command ends at its first fault, and the block state is the one it began with. -/
theorem transportFaultStopsTheCommand : Obligations.TransportFaultStopsTheCommand := by
  intro i s hr hi hd hw
  have hk : kindOf i = .other := kindOf_eq_other hi hd
  have stops : FaultsStop i s (frames s i) := faultsStop_frames hr hk hw
  refine ⟨stops, fun k t hlt h hf he => ?_⟩
  cases (stops k hlt h hf).symm.trans he
  exact hr.1

end Sys2Proof.Machine

/-! SUPPORT. The whole of DISPOSE, and each way INIT can end: with no handle, at an illegal address,
with another chip, at a fault, and in VALID. -/

namespace Sys2Proof.Machine

/-! ### DISPOSE -/

/-- Settles O19: the word is a fixed value, and a release that returns ends the command. -/
theorem disposeReleasesAndEndsDisposed : Obligations.DisposeReleasesAndEndsDisposed :=
  ⟨by decide, fun _ => exec_dispose⟩

/-- With no handle held there is nothing to release (R135). -/
theorem exec_dispose_noHandle {s : State} (htp : s.block.tp = none) : exec .dispose s =
    .next ((s.withBlock ⟨.disposed, none, none, none⟩).after 0 [] .ok 0) := by
  have hr : s.ReleaseReturns := fun h hh => by cases htp.symm.trans hh
  simpa [htp] using exec_dispose hr

/-- Settles O20: the first DISPOSE leaves a block with no handle, which is already what a second one
makes of it. -/
theorem disposeIsIdempotent : Obligations.DisposeIsIdempotent := by
  refine ⟨fun s => exec_dispose_noHandle, fun s t h => ?_⟩
  obtain rfl := (ends_of_next h).dispose_eq
  exact exec_dispose_noHandle rfl

/-! ### INIT with no handle presented -/

/-- The lifecycle check refuses with STATE or DISPOSED (R203). -/
theorem admission_status {l : Lifecycle} {k : CommandKind} {e : Status} {v : Value}
    (h : admission l k = some (e, v)) : e = .state ∨ e = .disposed := by
  cases l <;> cases k <;> cases h <;> simp

/-- Of all the endings one alone answers ARGUMENT (R207). -/
theorem Ends.of_argument {i : Instr} {s t : State} {v : Value} (h : Ends i s t)
    (hr : t.responses = s.responses ++ [⟨.argument, v⟩]) :
    i = .init ∧ s.block.lifecycle = .uninit ∧ s.hostTp = none := by
  cases h with
  | refused h =>
    obtain ⟨rfl, -⟩ : _ = Status.argument ∧ _ = v := by simpa using hr
    simpa using admission_status h
  | initAbsent hu ht => exact ⟨rfl, hu, ht⟩
  | illegalOperand | constant | completed | faulted | disposed | initRange | initIdentity
  | initFaulted | initCompleted => simp at hr

/-- Settles O21: INIT fails at once without a handle, and only that ending answers ARGUMENT. -/
theorem initWithoutTransport : Obligations.InitWithoutTransport :=
  ⟨fun _ => exec_init_absent, fun _ _ _ _ h => (ends_of_next h).of_argument⟩

/-! ### INIT's checks of the address and of the chip -/

/-- INIT's check of the address, on naturals (R116). -/
theorem legalAddress_iff (a : Byte) :
    legalAddress a = true ↔ 0x76 ≤ a.toNat ∧ a.toNat ≤ 0x77 := by
  simp [legalAddress, Config.addrPrimary, Config.addrSecondary, BitVec.le_def]

/-- INIT's calls, once they are past the chip-ID read, begin with its two events. -/
theorem okEventsFrom_framesInit_take (s : State) (k : Nat) :
    okEventsFrom s 0 ((framesInit s.params).take (k + 2)) =
      .wrB s.params.regChipId :: .rdB (s.byte 1) ::
        okEventsFrom s 2 ((framesCalibration s.params.calMap 20).take k) := rfl

/-- INIT at a legal address: it queries the address and never answers RANGE; it answers IDENTITY for
another chip alone; and a chip-ID read that completes comes right after the query. -/
theorem Ends.init_legal {s t : State} {d : TransportHandle} (h : Ends .init s t)
    (hu : s.block.lifecycle = .uninit) (ht : s.hostTp = some d)
    (ha : legalAddress d.address = true) :
    ∃ b n evs st v, t = (s.withBlock b).after n (.addr d.address :: evs) st v ∧ st ≠ .range ∧
      (st = .identity → s.byte 1 ≠ Config.chipIdValue) ∧
      (s.Returning 2 → ∃ es, evs = .wrB s.params.regChipId :: .rdB (s.byte 1) :: es) := by
  cases h with
  | refused h => rw [hu] at h; cases h
  | illegalOperand _ hk | completed _ hk | faulted _ hk => cases hk
  | initAbsent _ ht' => cases ht'.symm.trans ht
  | initRange _ ht' _ ha' =>
    cases ht'.symm.trans ht
    cases ha'.symm.trans ha
  | initIdentity _ ht' _ _ _ hid =>
    cases ht'.symm.trans ht
    exact ⟨_, _, _, _, _, rfl, by simp, fun _ => hid, fun _ => ⟨_, rfl⟩⟩
  | @initFaulted _ _ k _ ht' _ _ _ _ hf =>
    cases ht'.symm.trans ht
    refine ⟨_, _, _, _, _, rfl, by simp, by simp, fun h2 => ?_⟩
    have hk : 2 ≤ k := by
      refine Nat.le_of_not_lt fun hlt => ?_
      obtain ⟨b0, b1, hb⟩ := h2 k hlt
      cases hb.symm.trans hf
    obtain ⟨j, rfl⟩ := Nat.exists_eq_add_of_le' hk
    rw [okEventsFrom_framesInit_take]
    exact ⟨_, rfl⟩
  | initCompleted _ ht' =>
    cases ht'.symm.trans ht
    exact ⟨_, _, _, _, _, rfl, by simp, by simp, fun _ => ⟨_, rfl⟩⟩

/-- Settles O23: the check is the inclusive range, and RANGE is no ending inside it. -/
theorem initChecksAddressRange : Obligations.InitChecksAddressRange := by
  intro s d hu ht hp
  rw [← legalAddress_iff]
  refine ⟨fun ha => exec_init_range hu ht hp (Bool.eq_false_of_not_eq_true ha), fun ha t h => ?_⟩
  obtain ⟨b, n, evs, st, v, rfl, hst, -⟩ := (ends_of_next h).init_legal hu ht ha
  exact ⟨⟨st, v⟩, rfl, hst⟩

/-- Settles O24: another chip ends INIT after the chip-ID read, and with the chip identified that read
stands first and IDENTITY is no ending. -/
theorem initChecksIdentity : Obligations.InitChecksIdentity := by
  intro s d hu ht hp hlo hhi hr
  have ha : legalAddress d.address = true := (legalAddress_iff _).mpr ⟨hlo, hhi⟩
  refine ⟨exec_init_identity hu ht hp ha hr, fun hid t h => ?_⟩
  obtain ⟨b, n, evs, st, v, rfl, -, hst, hevs⟩ := (ends_of_next h).init_legal hu ht ha
  obtain ⟨es, rfl⟩ := hevs hr
  exact ⟨es, ⟨st, v⟩, by simp [hid], rfl, fun he => hst he hid⟩

/-! ### INIT past its checks -/

/-- Settles O25: the fault ends INIT through `init_fail`, at whichever of its frames it comes. -/
theorem initStopsAtTransportFault : Obligations.InitStopsAtTransportFault :=
  fun _ _ _ hk hu ht hp hlo hhi hr hf hid =>
    exec_init_faulted hu ht hp ((legalAddress_iff _).mpr ⟨hlo, hhi⟩) hk hr hf hid

/-- Settles O26: with every frame completed and the chip identified INIT ends in VALID. -/
theorem initSucceeds : Obligations.InitSucceeds :=
  ⟨by decide, fun _ _ hu ht hq hlo hhi hr hid =>
    exec_init_completed hu ht hq ((legalAddress_iff _).mpr ⟨hlo, hhi⟩) hr hid⟩

/-- Settles O27: the default map is a fixed list, and so are its frames. -/
theorem defaultCalibrationFrames : Obligations.DefaultCalibrationFrames := ⟨rfl, rfl⟩

/-! ### The writes of INIT -/

/-- The call is a write frame that carries data. -/
def BusCall.isDataWrite : BusCall → Bool
  | .writeBytes _ => true
  | .writeByte _ => false
  | .readByte => false
  | .readTwoBytes => false

/-- A completed call is a data write in the trace when it is one as a call. -/
@[simp] theorem okEvent_isDataWrite (c : BusCall) (b0 b1 : Byte) :
    (c.okEvent b0 b1).isDataWrite = c.isDataWrite := by cases c <;> rfl

/-- So is a call that faults. -/
@[simp] theorem faultEvent_isDataWrite (c : BusCall) :
    c.faultEvent.isDataWrite = c.isDataWrite := by cases c <;> rfl

theorem framesConstant_isDataWrite (e : Config.CalEntry) :
    ∀ c ∈ framesConstant e, c.isDataWrite = false := by
  cases e <;> simp [framesConstant, framesRead8, BusCall.isDataWrite]

/-- INIT's calls are register selects and reads (R126). -/
theorem framesInit_isDataWrite (p : Config.Params) :
    ∀ c ∈ framesInit p, c.isDataWrite = false := by
  intro c hc
  rcases List.mem_append.mp hc with hid | hcal
  · exact framesConstant_isDataWrite (.r8 p.regChipId) c hid
  · obtain ⟨e, -, he⟩ := List.mem_flatMap.mp hcal
    exact framesConstant_isDataWrite e c he

/-- Calls that carry no data record no data write. -/
theorem okEventsFrom_isDataWrite (s : State) (k : Nat) {cs : List BusCall}
    (h : ∀ c ∈ cs, c.isDataWrite = false) :
    ∀ e ∈ okEventsFrom s k cs, e.isDataWrite = false := by
  induction cs generalizing k with
  | nil => exact nofun
  | cons c cs ih =>
    obtain ⟨hc, hcs⟩ := List.forall_mem_cons.mp h
    exact List.forall_mem_cons.mpr ⟨by rwa [okEvent_isDataWrite], ih (k + 1) hcs⟩

/-- Settles O28, by the endings of INIT: beside the address query and the release it records its own
calls, completed or faulted, and none of them carries data. -/
theorem initWritesNoData : Obligations.InitWritesNoData := by
  intro s t h
  have hframes := framesInit_isDataWrite s.params
  cases ends_of_next h with
  | refused | initAbsent => exact ⟨[], rfl, nofun⟩
  | illegalOperand _ hk | completed _ hk | faulted _ hk => cases hk
  | initRange | initIdentity => exact ⟨_, rfl, by simp [Event.isDataWrite]⟩
  | initFaulted _ _ _ _ hlt =>
    refine ⟨_, rfl, List.forall_mem_append.mpr ⟨List.forall_mem_cons.mpr ⟨rfl, ?_⟩, ?_⟩⟩
    · exact okEventsFrom_isDataWrite s 0 fun c hc => hframes c (List.mem_of_mem_take hc)
    · exact List.forall_mem_cons.mpr
        ⟨by simp [hframes _ (List.getElem_mem hlt)], by simp [Event.isDataWrite]⟩
  | initCompleted =>
    exact ⟨_, rfl, List.forall_mem_cons.mpr ⟨rfl, okEventsFrom_isDataWrite s 0 hframes⟩⟩

end Sys2Proof.Machine

/-! SUPPORT. READ8: a select and a one-byte read, answered with the byte. -/

namespace Sys2Proof.Machine

/-- Settles O31: READ8 has the two frames of `framesRead8` and answers with the byte the second
returns; a fault of either ends it. -/
theorem read8ReadsOneByte : Obligations.Read8ReadsOneByte := by
  intro s r
  have faults (hr : s.Ready) : FaultsStop (.read8 r) s (framesRead8 r) :=
    faultsStop_frames hr rfl rfl
  refine ⟨rfl, fun hr h => ?_, fun hr hf => ?_, fun hr h hf => ?_,
    refusedOutsideValid_of_other s rfl⟩
  · exact exec_completed hr rfl rfl (fun _ => nofun) h
  · exact faults hr 0 Nat.two_pos (returning_zero s) hf
  · exact faults hr 1 Nat.one_lt_two h hf

end Sys2Proof.Machine

/-! SUPPORT. The field packer: the written byte on unbounded naturals, and its two parts, the prior
byte outside the mask and the shifted value inside it. -/

namespace Sys2Proof.Machine

/-! ### The packed byte on naturals -/

/-- The model complements a mask as the spec's formula does, by `0xFF ^ mask` (R151). -/
theorem byte_xor_eq_not (m : Byte) : 0xFF ^^^ m = ~~~m := BitVec.allOnes_xor

theorem byte_not_toNat (m : Byte) : (~~~m).toNat = 0xFF ^^^ m.toNat := by
  rw [← byte_xor_eq_not, BitVec.toNat_xor]
  rfl

/-- Under a mask of 8 bits, a shift on 8 bits and one on unbounded naturals keep the same bits
(log entry 17). -/
theorem shiftLeft_and_toNat (v m : Byte) (k : Nat) :
    ((v <<< k) &&& m).toNat = (v.toNat <<< k) &&& m.toNat := by
  have hlt : (v.toNat <<< k) &&& m.toNat < 2 ^ 8 := Nat.and_lt_two_pow _ m.isLt
  calc ((v <<< k) &&& m).toNat
      = (v.toNat <<< k) % 2 ^ 8 &&& m.toNat % 2 ^ 8 := by
        rw [BitVec.toNat_and, BitVec.toNat_shiftLeft, Nat.mod_eq_of_lt m.isLt]
    _ = ((v.toNat <<< k) &&& m.toNat) % 2 ^ 8 := Nat.and_mod_two_pow.symm
    _ = (v.toNat <<< k) &&& m.toNat := Nat.mod_eq_of_lt hlt

/-- Settles O53: each part of the packed byte is the formula's on naturals. -/
theorem packedByteIsTheFormula : Obligations.PackedByteIsTheFormula := by
  intro fd p v
  rw [FieldDesc.pack, BitVec.toNat_or, shiftLeft_and_toNat, byte_xor_eq_not, BitVec.toNat_and,
    byte_not_toNat]

/-! ### The packed byte outside and inside the mask -/

section Parts
variable (fd : FieldDesc) (p v : Byte)

theorem pack_eq : fd.pack p v = (p &&& ~~~fd.mask) ||| ((v <<< fd.shift) &&& fd.mask) := by
  rw [FieldDesc.pack, byte_xor_eq_not]

/-- Outside the mask the packed byte is the prior byte, whatever the value. -/
theorem pack_and_not_mask : fd.pack p v &&& ~~~fd.mask = p &&& ~~~fd.mask := by
  simp [pack_eq, BitVec.and_or_distrib_right, BitVec.and_assoc]

/-- Inside the mask it is the shifted value, whatever the prior byte. -/
theorem pack_and_mask : fd.pack p v &&& fd.mask = (v <<< fd.shift) &&& fd.mask := by
  simp [pack_eq, BitVec.and_or_distrib_right, BitVec.and_assoc]

end Parts

/-! ### A value that fits its field -/

/-- A value whose shift has no bit outside the mask is kept whole by the mask. -/
theorem shiftLeft_and_mask_of_fits {fd : FieldDesc} {v : Byte}
    (hfit : (v.toNat <<< fd.shift) &&& (0xFF ^^^ fd.mask.toNat) = 0) :
    (v <<< fd.shift) &&& fd.mask = v <<< fd.shift := by
  have hout : (v <<< fd.shift) &&& ~~~fd.mask = 0 := by
    apply BitVec.eq_of_toNat_eq
    rw [shiftLeft_and_toNat, byte_not_toNat, hfit]
    rfl
  calc (v <<< fd.shift) &&& fd.mask
      = ((v <<< fd.shift) &&& fd.mask) ||| ((v <<< fd.shift) &&& ~~~fd.mask) := by
        rw [hout]; exact BitVec.or_zero.symm
    _ = v <<< fd.shift := by
        rw [← BitVec.and_or_distrib_left, BitVec.or_not_self, BitVec.and_allOnes]

/-- A shift that pushes no bit past bit 7 is undone by the shift back. -/
theorem shiftLeft_ushiftRight_of_lt {v : Byte} {k : Nat} (hlt : v.toNat <<< k < 256) :
    (v <<< k) >>> k = v := by
  apply BitVec.eq_of_toNat_eq
  rw [BitVec.toNat_ushiftRight, BitVec.toNat_shiftLeft, Nat.mod_eq_of_lt hlt,
    Nat.shiftLeft_shiftRight]

/-- Settles O54, by the two parts of the packed byte: the mask keeps the whole of a value that
fits. -/
theorem fieldIsolation : Obligations.FieldIsolation := by
  intro fd p v hfit _
  have hkeep : (v <<< fd.shift) &&& fd.mask = v <<< fd.shift := shiftLeft_and_mask_of_fits hfit
  refine ⟨?_, pack_and_not_mask fd p v, ?_⟩
  · rw [pack_eq, hkeep]
  · rw [pack_and_mask, hkeep]

/-- Settles O55: the packed byte holds the shifted value inside the mask, and shifting that back
gives the value. -/
theorem extractionUndoesPacking : Obligations.ExtractionUndoesPacking := by
  intro fd p v hfit hlt
  obtain ⟨-, -, hinside⟩ := fieldIsolation fd p v hfit hlt
  rw [FieldDesc.get, hinside, shiftLeft_ushiftRight_of_lt hlt]

end Sys2Proof.Machine

/-! SUPPORT. The four commands that write one field of a control register (R158, R161, R164, R166):
which field, which value, and that the value fits, so that each of them is one read-modify-write of
`(prior & ~mask) | (value << shift)`. -/

namespace Sys2Proof.Machine

/-! ### The field a command writes -/

/-- `FieldWrite i fd v`: command `i` has a legal operand and writes `v` to the field `fd`. -/
inductive FieldWrite : Instr → FieldDesc → Byte → Prop where
  | mode {m : Byte} (h : legalMode m = true) : FieldWrite (.setMode m) fdMode m
  | osrsT (lvl : Byte) : FieldWrite (.setOsrsT lvl) fdOsrsT (clampLevel lvl)
  | osrsP (lvl : Byte) : FieldWrite (.setOsrsP lvl) fdOsrsP (clampLevel lvl)
  | osrsH (lvl : Byte) : FieldWrite (.setOsrsH lvl) fdOsrsH (clampLevel lvl)

/-- The commands of R180 are those that write a field. -/
theorem isFieldWrite_iff {i : Instr} : isFieldWrite i = true ↔ ∃ fd v, FieldWrite i fd v := by
  constructor
  · intro h
    cases i with
    | setMode m => exact ⟨_, _, .mode h⟩
    | setOsrsT lvl => exact ⟨_, _, .osrsT lvl⟩
    | setOsrsP lvl => exact ⟨_, _, .osrsP lvl⟩
    | setOsrsH lvl => exact ⟨_, _, .osrsH lvl⟩
    | _ => cases h
  · rintro ⟨fd, v, h⟩
    cases h with
    | mode h => exact h
    | osrsT | osrsP | osrsH => rfl

/-- The clamp on naturals (R163). -/
theorem clampLevel_toNat (lvl : Byte) : (clampLevel lvl).toNat = min lvl.toNat 5 := by
  have hlt : min lvl.toNat 5 < 2 ^ 8 := by omega
  exact (BitVec.toNat_ofNat ..).trans (Nat.mod_eq_of_lt hlt)

/-- A level the block knows is not changed by the clamp. -/
theorem clampLevel_of_le {lvl : Byte} (h : lvl.toNat ≤ 5) : clampLevel lvl = lvl := by
  apply BitVec.eq_of_toNat_eq
  rw [clampLevel_toNat, Nat.min_eq_left h]

/-- Every value up to 5 fits each of the three oversampling fields. -/
theorem level_fits : ∀ fd ∈ [fdOsrsT, fdOsrsP, fdOsrsH], ∀ n < 6,
    (n <<< fd.shift) &&& (0xFF ^^^ fd.mask.toNat) = 0 ∧ n <<< fd.shift < 256 := by decide

theorem clampLevel_fits {fd : FieldDesc} (h : fd ∈ [fdOsrsT, fdOsrsP, fdOsrsH]) (lvl : Byte) :
    ((clampLevel lvl).toNat <<< fd.shift) &&& (0xFF ^^^ fd.mask.toNat) = 0 ∧
      (clampLevel lvl).toNat <<< fd.shift < 256 := by
  rw [clampLevel_toNat]
  exact level_fits fd h _ (by omega)

/-- Both modes fit the mode field. -/
theorem mode_fits : ∀ n < 2,
    (n <<< fdMode.shift) &&& (0xFF ^^^ fdMode.mask.toNat) = 0 ∧ n <<< fdMode.shift < 256 := by decide

/-- Settles O56: a clamped level fits its field, so extraction gives it back, and the clamp leaves a
level up to 5 alone. -/
theorem writtenLevelIsClamped : Obligations.WrittenLevelIsClamped := by
  intro fd p lvl hfd
  obtain ⟨hfit, hlt⟩ := clampLevel_fits hfd lvl
  refine ⟨?_, fun hle => ?_⟩
  · rw [extractionUndoesPacking fd p _ hfit hlt, clampLevel_toNat]
  · obtain ⟨hpack, -, -⟩ := fieldIsolation fd p _ hfit hlt
    rw [hpack, clampLevel_of_le hle]

/-! ### A field write as a command -/

namespace FieldWrite
variable {i : Instr} {fd : FieldDesc} {v : Byte}

/-- The value fits the field, in the sense of R152. -/
theorem fits (h : FieldWrite i fd v) :
    (v.toNat <<< fd.shift) &&& (0xFF ^^^ fd.mask.toNat) = 0 ∧ v.toNat <<< fd.shift < 256 := by
  cases h with
  | mode h => exact mode_fits _ (Nat.lt_succ_of_le ((legalMode_iff _).mp h))
  | osrsT lvl => exact clampLevel_fits (by decide) lvl
  | osrsP lvl => exact clampLevel_fits (by decide) lvl
  | osrsH lvl => exact clampLevel_fits (by decide) lvl

/-- The byte written: the prior one outside the field, the value inside it. -/
theorem pack_eq (h : FieldWrite i fd v) (p : Byte) :
    fd.pack p v = (p &&& ~~~fd.mask) ||| (v <<< fd.shift) := by
  obtain ⟨hfit, -⟩ := h.fits
  rw [Machine.pack_eq, shiftLeft_and_mask_of_fits hfit]

/-- Inside the field the byte written is the value, whatever the prior byte. -/
theorem pack_and_mask (h : FieldWrite i fd v) (p : Byte) :
    fd.pack p v &&& fd.mask = v <<< fd.shift := by
  obtain ⟨hfit, -⟩ := h.fits
  rw [Machine.pack_and_mask, shiftLeft_and_mask_of_fits hfit]

/-- On a VALID block a field write is the three frames of a read-modify-write and the value 0. -/
theorem exec_eq (h : FieldWrite i fd v) {s : State} (hv : s.block.lifecycle = .valid) :
    exec i s = ((runCalls (framesRmw fd v (s.byte 1)) s).map fun _ => 0).deliver := by
  cases h with
  | mode h =>
    have hw : (Instr.setMode _).wellFormed = true := decide_eq_true ((legalMode_iff _).mp h)
    exact exec_eq_calls hv rfl hw fun _ => nofun
  | osrsT | osrsP | osrsH => exact exec_eq_calls hv rfl rfl fun _ => nofun

variable {s : State} {new : Byte}

/-- A field write whose frames complete. -/
theorem completed (h : FieldWrite i fd v)
    (hnew : new = (s.byte 1 &&& ~~~fd.mask) ||| (v <<< fd.shift)) (hr : s.Ready)
    (hret : s.Returning 3) : exec i s =
      .next (s.after 3 [.wrB fd.reg, .rdB (s.byte 1), .wrN [fd.reg, new]] .ok 0) := by
  rw [hnew, ← h.pack_eq, h.exec_eq hr.1, runCalls_returning (cs := framesRmw _ _ _) hr.2 hret]
  rfl

/-- A field write stops at the first of its three frames to fault. -/
theorem faultsStop (h : FieldWrite i fd v)
    (hnew : new = (s.byte 1 &&& ~~~fd.mask) ||| (v <<< fd.shift)) (hr : s.Ready) :
    FaultsStop i s [.writeByte fd.reg, .readByte, .writeBytes [fd.reg, new]] := by
  rw [hnew, ← h.pack_eq]
  intro k hk hret hf
  rw [h.exec_eq hr.1, runCalls_faults (cs := framesRmw _ _ _) hr.2 hk hret hf]
  rfl

end FieldWrite

/-! ### The four commands -/

/-- Settles O34: a legal mode is a field write, any other is refused by SET_MODE's own check. -/
theorem setModePacksTheMode : Obligations.SetModePacksTheMode := by
  intro s m
  have write (hm : m.toNat ≤ 1) : FieldWrite (.setMode m) fdMode m := .mode ((legalMode_iff m).mpr hm)
  have hnew : (s.byte 1 &&& 0xFC) ||| m = (s.byte 1 &&& ~~~fdMode.mask) ||| (m <<< fdMode.shift) := by
    rw [show m <<< fdMode.shift = m from BitVec.shiftLeft_zero m]
    rfl
  refine ⟨rfl, fun hr hm => (write hm).completed hnew hr, fun hr hm => ?_,
    fun hr hm => (write hm).faultsStop hnew hr, refusedOutsideValid_of_other s rfl⟩
  exact exec_illegalOperand hr.1 (decide_eq_false (Nat.not_le_of_lt hm))

/-- Settles O35: a field write of bits 7:5. -/
theorem setOsrsTPacksTheClampedLevel : Obligations.SetOsrsTPacksTheClampedLevel := by
  intro s lvl new hnew
  have write := FieldWrite.osrsT lvl
  exact ⟨rfl, write.completed hnew, write.faultsStop hnew, refusedOutsideValid_of_other s rfl⟩

/-- Settles O36: a field write of bits 4:2. -/
theorem setOsrsPPacksTheClampedLevel : Obligations.SetOsrsPPacksTheClampedLevel := by
  intro s lvl new hnew
  have write := FieldWrite.osrsP lvl
  exact ⟨rfl, write.completed hnew, write.faultsStop hnew, refusedOutsideValid_of_other s rfl⟩

/-- Settles O37: a field write of bits 2:0, where the shift is by 0. -/
theorem setOsrsHPacksTheClampedLevel : Obligations.SetOsrsHPacksTheClampedLevel := by
  intro s lvl new hnew
  have write := FieldWrite.osrsH lvl
  rw [← BitVec.shiftLeft_zero (BitVec.ofNat 8 (min lvl.toNat 5))] at hnew
  exact ⟨rfl, write.completed hnew, write.faultsStop hnew, refusedOutsideValid_of_other s rfl⟩

end Sys2Proof.Machine

/-! SUPPORT. GET_MODE and HAS_NEW_DATA: one register read each, answered with a field of the byte. -/

namespace Sys2Proof.Machine

/-- The mode field stands at bit 0, so its value is the masked byte (R178). -/
theorem powerMode_eq (p : Byte) : powerMode p = p &&& 0x03 := BitVec.ushiftRight_zero _

/-- The new-data flag is bit 7 alone (R174). -/
theorem newDataFlag_eq (b : Byte) : newDataFlag b = if b.getLsbD 7 then 1 else 0 := by
  have hmask : b &&& 0x80 = if b.getLsbD 7 then BitVec.twoPow 8 7 else 0 := BitVec.and_twoPow b 7
  rw [newDataFlag, FieldDesc.get, fdNewData, hmask]
  split <;> rfl

/-- Settles O39: GET_MODE has the frames of a register read and answers with the byte's mode field. -/
theorem getModeReadsTheRawMode : Obligations.GetModeReadsTheRawMode := by
  refine ⟨by decide, fun s => ⟨fun hr h => ?_, fun hr => faultsStop_frames hr rfl rfl,
    refusedOutsideValid_of_other s rfl⟩⟩
  rw [← powerMode_eq]
  exact exec_completed hr rfl rfl (fun _ => nofun) h

/-- Settles O40: HAS_NEW_DATA has the frames of a register read and answers with the byte's flag. -/
theorem hasNewDataIsolatesBitSeven : Obligations.HasNewDataIsolatesBitSeven := by
  refine ⟨by decide, fun s => ⟨fun hr h => ?_, fun hr => faultsStop_frames hr rfl rfl,
    refusedOutsideValid_of_other s rfl⟩⟩
  have hflag : (if (s.byte 1).getLsbD 7 then 1 else 0 : Value) =
      (newDataFlag (s.byte 1)).setWidth 32 := by
    rw [newDataFlag_eq]
    split <;> rfl
  rw [hflag]
  exact exec_completed hr rfl rfl (fun _ => nofun) h

end Sys2Proof.Machine

/-! SUPPORT. Field writes on the reference device (R180, D28): each command of an accepted trace
rewrites one field of the image, so what a list of them leaves is read off by induction on the list. -/

namespace Sys2Proof.Machine

/-! ### Traces the device accepts -/

/-- The device judges a trace part by part. -/
theorem accepts_append (es fs : List Event) (d : RefDevice) :
    RefDevice.accepts (es ++ fs) d = (RefDevice.accepts es d).bind (RefDevice.accepts fs) := by
  induction es generalizing d with
  | nil => rfl
  | cons e es ih =>
    rw [List.cons_append, RefDevice.accepts, RefDevice.accepts]
    cases d.observe e with
    | none => rfl
    | some d₁ => exact ih d₁

/-- The device has no faults, so it accepts no trace that ends in one (D28). -/
theorem accepts_fault (es : List Event) (c : BusCall) (d : RefDevice) :
    RefDevice.accepts (es ++ [c.faultEvent]) d = none := by
  rw [accepts_append]
  cases RefDevice.accepts es d with
  | none => rfl
  | some d₁ => cases c <;> rfl

/-- The image with the field `fd` holding `v` and everything else as it was. -/
def Memory.setField (m : Memory) (fd : FieldDesc) (v : Byte) : Memory :=
  m.write fd.reg (fd.pack (m.read fd.reg) v)

/-- A select, a read of the byte the image holds there and a write store the byte written, and leave
the pointer past the byte read (D28). -/
theorem accepts_select_read_write (r b w : Byte) (d : RefDevice) :
    RefDevice.accepts [.wrB r, .rdB b, .wrN [r, w]] d =
      if b = d.image.read r then some ⟨d.image.write r w, r + 1⟩ else none := by
  by_cases hb : b = d.image.read r
  · simp [RefDevice.accepts, RefDevice.observe, RefDevice.serves, hb]
  · simp [RefDevice.accepts, RefDevice.observe, RefDevice.serves, hb]

/-- On the device the byte a read-modify-write packs is the one the image holds, so the image is
rewritten in that field. -/
theorem accepts_framesRmw {s : State} {fd : FieldDesc} {v : Byte} {d d' : RefDevice}
    (h : RefDevice.accepts (okEventsFrom s 0 (framesRmw fd v (s.byte 1))) d = some d') :
    d'.image = d.image.setField fd v := by
  have hjudge := (accepts_select_read_write fd.reg (s.byte 1) (fd.pack (s.byte 1) v) d).symm.trans h
  split at hjudge
  · next hb =>
    cases hjudge
    rw [Memory.setField, ← hb]
  · cases hjudge

/-- A field write that is answered leaves the block Ready, and a device that accepts its events has
that field rewritten. -/
theorem FieldWrite.exec_setsField {i : Instr} {fd : FieldDesc} {v : Byte} (h : FieldWrite i fd v)
    {s t : State} (hr : s.Ready) (he : exec i s = .next t) :
    t.Ready ∧ ∃ evs, t.trace = s.trace ++ evs ∧ ∀ d d' : RefDevice,
      RefDevice.accepts evs d = some d' → d'.image = d.image.setField fd v := by
  rw [h.exec_eq hr.1] at he
  rcases runCalls_cases (framesRmw fd v (s.byte 1)) s hr.2 with
    ⟨-, hx⟩ | ⟨k, hk, -, -, hx⟩ | ⟨k, hk, -, -, hx⟩
  · rw [hx] at he
    cases he
    exact ⟨hr, _, rfl, fun d d' => accepts_framesRmw⟩
  · rw [hx] at he
    cases he
    exact ⟨hr, _, rfl, fun d d' ha => by rw [accepts_fault] at ha; cases ha⟩
  · rw [hx] at he
    cases he

/-! ### A list of field writes on the image -/

/-- `Rewrites is m m'`: the field writes `is`, one after the other, make `m'` of the image `m`. -/
inductive Rewrites : List Instr → Memory → Memory → Prop where
  | nil (m : Memory) : Rewrites [] m m
  | cons {i : Instr} {is : List Instr} {fd : FieldDesc} {v : Byte} {m m' : Memory}
      (h : FieldWrite i fd v) (hs : Rewrites is (m.setField fd v) m') : Rewrites (i :: is) m m'

/-- A list of field writes that is answered rewrites the image of every device that accepts its
events. -/
theorem rewrites_of_execAll {is : List Instr} {s t : State} (hr : s.Ready)
    (hw : ∀ i ∈ is, isFieldWrite i = true) (he : execAll is s = .next t) :
    ∃ evs, t.trace = s.trace ++ evs ∧ ∀ d d' : RefDevice,
      RefDevice.accepts evs d = some d' → Rewrites is d.image d'.image := by
  induction is generalizing s with
  | nil =>
    cases he
    refine ⟨[], (List.append_nil _).symm, fun d d' ha => ?_⟩
    cases ha
    exact .nil _
  | cons i is ih =>
    obtain ⟨hi, his⟩ := List.forall_mem_cons.mp hw
    obtain ⟨fd, v, hwrite⟩ := isFieldWrite_iff.mp hi
    rw [execAll] at he
    cases hx : exec i s with
    | fault f => rw [hx] at he; cases he
    | refused r => rw [hx] at he; cases he
    | next u =>
      rw [hx] at he
      obtain ⟨hu, evs, htr, hset⟩ := hwrite.exec_setsField hr hx
      obtain ⟨fvs, htr', hrest⟩ := ih hu his he
      refine ⟨evs ++ fvs, by rw [htr', htr, List.append_assoc], fun d d' ha => ?_⟩
      rw [accepts_append] at ha
      obtain ⟨d₁, h₁, h₂⟩ := Option.bind_eq_some_iff.mp ha
      exact .cons hwrite (hset d d₁ h₁ ▸ hrest d₁ d' h₂)

/-! ### One field rewritten -/

/-- Bits `k` of register `a` stand apart from the field: another register, or other bits of it. -/
abbrev FieldDesc.Apart (fd : FieldDesc) (a k : Byte) : Prop := a ≠ fd.reg ∨ ~~~fd.mask &&& k = k

section SetField
variable {m : Memory} {fd : FieldDesc} {v : Byte}

theorem wf_setField (hm : m.wf = true) : (m.setField fd v).wf = true := wf_write _ _ hm

/-- Every other register is left alone. -/
theorem read_setField_other {a : Byte} (h : a ≠ fd.reg) : (m.setField fd v).read a = m.read a :=
  read_write_other _ h

/-- The register of the field holds the packed byte. -/
theorem read_setField_same (hm : m.wf = true) :
    (m.setField fd v).read fd.reg = fd.pack (m.read fd.reg) v := read_write_same _ _ hm

/-- Bits apart from the field keep their values. -/
theorem read_setField_apart {a k : Byte} (hm : m.wf = true) (h : fd.Apart a k) :
    (m.setField fd v).read a &&& k = m.read a &&& k := by
  by_cases ha : a = fd.reg
  · have hk : ~~~fd.mask &&& k = k := h.resolve_left fun hne => hne ha
    subst ha
    rw [read_setField_same hm, ← hk, ← BitVec.and_assoc, ← BitVec.and_assoc, pack_and_not_mask]
  · rw [read_setField_other ha]

end SetField

/-! ### What a list of field writes keeps -/

namespace Rewrites
variable {is : List Instr} {m m' : Memory}

/-- Bits apart from every field written keep their values. -/
theorem keeps_bits (h : Rewrites is m m') (hm : m.wf = true) {a k : Byte}
    (hapart : ∀ i ∈ is, ∀ fd v, FieldWrite i fd v → fd.Apart a k) :
    m'.read a &&& k = m.read a &&& k := by
  induction h with
  | nil => rfl
  | cons hwrite _ ih =>
    obtain ⟨hi, his⟩ := List.forall_mem_cons.mp hapart
    rw [ih (wf_setField hm) his, read_setField_apart hm (hi _ _ hwrite)]

/-- A register none of whose fields is written keeps its byte. -/
theorem keeps_register (h : Rewrites is m m') (hm : m.wf = true) {a : Byte}
    (hreg : ∀ i ∈ is, ∀ fd v, FieldWrite i fd v → a ≠ fd.reg) : m'.read a = m.read a := by
  have hall := h.keeps_bits hm (k := BitVec.allOnes 8) fun i hi fd v hw => .inl (hreg i hi fd v hw)
  rwa [BitVec.and_allOnes, BitVec.and_allOnes] at hall

end Rewrites

/-- Of the register 0x72 a field write changes bits 2:0 at most. -/
theorem FieldWrite.apart_ctrlHum {i : Instr} {fd : FieldDesc} {v : Byte} (h : FieldWrite i fd v) :
    fd.Apart 0x72 0xF8 := by
  cases h with
  | mode | osrsT | osrsP => exact .inl (by decide)
  | osrsH => exact .inr (by decide)

/-- The registers written are 0x72 and 0x74. -/
theorem FieldWrite.reg_eq {i : Instr} {fd : FieldDesc} {v : Byte} (h : FieldWrite i fd v) :
    fd.reg = 0x72 ∨ fd.reg = 0x74 := by
  cases h with
  | mode | osrsT | osrsP => exact .inr rfl
  | osrsH => exact .inl rfl

/-! ### What the fields of 0x74 hold -/

/-- The field `fd` of the image holds the value `o`, where there is one. -/
def Memory.Holds (m : Memory) (fd : FieldDesc) (o : Option Byte) : Prop :=
  ∀ v ∈ o, m.read fd.reg &&& fd.mask = v <<< fd.shift

/-- A field that is written holds the value. -/
theorem FieldWrite.holds {i : Instr} {fd : FieldDesc} {v : Byte} (h : FieldWrite i fd v) {m : Memory}
    (hm : m.wf = true) : (m.setField fd v).Holds fd (some v) := by
  intro w hw
  cases hw
  rw [read_setField_same hm, h.pack_and_mask]

/-- A field keeps what it holds when another is written. -/
theorem Memory.Holds.setField {m : Memory} {fd' : FieldDesc} {o : Option Byte} (h : m.Holds fd' o)
    (hm : m.wf = true) (fd : FieldDesc) (v : Byte) (hapart : fd.Apart fd'.reg fd'.mask) :
    (m.setField fd v).Holds fd' o := fun w hw => by
  rw [read_setField_apart hm hapart, h w hw]

/-- The three fields of 0x74 hold what they were last given. -/
structure LastSet.HeldBy (l : LastSet) (m : Memory) : Prop where
  osrsT : m.Holds fdOsrsT l.osrsT
  osrsP : m.Holds fdOsrsP l.osrsP
  mode : m.Holds fdMode l.mode

/-- A field write notes its value and leaves the other fields of 0x74 alone. -/
theorem LastSet.HeldBy.note {l : LastSet} {m : Memory} {i : Instr} {fd : FieldDesc} {v : Byte}
    (hl : l.HeldBy m) (hm : m.wf = true) (h : FieldWrite i fd v) :
    (l.note i).HeldBy (m.setField fd v) := by
  obtain ⟨hT, hP, hM⟩ := hl
  have keepT := hT.setField hm fd v
  have keepP := hP.setField hm fd v
  have keepM := hM.setField hm fd v
  cases h with
  | mode h => exact ⟨keepT (by decide), keepP (by decide), (FieldWrite.mode h).holds hm⟩
  | osrsT lvl => exact ⟨(FieldWrite.osrsT lvl).holds hm, keepP (by decide), keepM (by decide)⟩
  | osrsP lvl => exact ⟨keepT (by decide), (FieldWrite.osrsP lvl).holds hm, keepM (by decide)⟩
  | osrsH lvl => exact ⟨keepT (by decide), keepP (by decide), keepM (by decide)⟩

/-- After a list of field writes the fields of 0x74 hold what the list last gave them. -/
theorem Rewrites.heldBy {is : List Instr} {m m' : Memory} (h : Rewrites is m m') (hm : m.wf = true)
    {l : LastSet} (hl : l.HeldBy m) : (is.foldl LastSet.note l).HeldBy m' := by
  induction h generalizing l with
  | nil => exact hl
  | cons hwrite _ ih => exact ih (wf_setField hm) (hl.note hm hwrite)

/-- Where nothing has been given, nothing is claimed. -/
theorem heldBy_none (m : Memory) : LastSet.HeldBy ⟨none, none, none⟩ m := ⟨nofun, nofun, nofun⟩

/-- The three fields of 0x74 make up its byte. -/
theorem LastSet.HeldBy.read_ctrlMeas {lt lp md : Byte} {m : Memory}
    (h : LastSet.HeldBy ⟨some lt, some lp, some md⟩ m) :
    m.read 0x74 = (lt <<< 5) ||| (lp <<< 2) ||| md := by
  have hT : m.read 0x74 &&& (0xE0 : Byte) = lt <<< 5 := h.osrsT lt rfl
  have hP : m.read 0x74 &&& (0x1C : Byte) = lp <<< 2 := h.osrsP lp rfl
  have hM : m.read 0x74 &&& 0x03 = md := (h.mode md rfl).trans (BitVec.shiftLeft_zero md)
  calc m.read 0x74
      = m.read 0x74 &&& (0xE0 ||| 0x1C ||| 0x03) := BitVec.and_allOnes.symm
    _ = (lt <<< 5) ||| (lp <<< 2) ||| md := by
      rw [BitVec.and_or_distrib_left, BitVec.and_or_distrib_left, hT, hP, hM]

/-- Settles O59: an accepted trace is a list of field rewrites of the image, of which the fields of
0x74 hold the last values and all bits apart from the fields written are kept. -/
theorem fieldIndependenceOnReferenceDevice : Obligations.FieldIndependenceOnReferenceDevice := by
  intro is s t d d' evs hr hw hwf he htr ha
  obtain ⟨fvs, htr', himage⟩ := rewrites_of_execAll hr hw he
  obtain rfl : evs = fvs := List.append_cancel_left (htr.symm.trans htr')
  have h : Rewrites is d.image d'.image := himage d d' ha
  refine ⟨fun lt lp m hlast => ?_, ?_, fun a h72 h74 => ?_, fun honly => ?_⟩
  · have hheld := h.heldBy hwf (heldBy_none d.image)
    rw [hlast] at hheld
    exact hheld.read_ctrlMeas
  · exact h.keeps_bits hwf fun _ _ _ _ hwrite => hwrite.apart_ctrlHum
  · refine h.keeps_register hwf fun _ _ fd _ hwrite hreg => ?_
    exact hwrite.reg_eq.elim (fun he => h72 (hreg.trans he)) fun he => h74 (hreg.trans he)
  · refine h.keeps_register hwf fun i hi fd v hwrite => ?_
    obtain ⟨lvl, rfl⟩ := honly i hi
    cases hwrite
    decide

end Sys2Proof.Machine

/-! SUPPORT. The values assembled from more than one byte: side by side, without carry, within their
widths (R186, R123), and the measurement commands that answer with them. -/

namespace Sys2Proof.Machine

/-! ### Assembled values -/

/-- On naturals, two words side by side are a sum without carry. -/
theorem toNat_append_eq_add {m n : Nat} (x : BitVec m) (y : BitVec n) :
    (x ++ y).toNat = (x.toNat <<< n) + y.toNat := by
  rw [BitVec.toNat_append, Nat.shiftLeft_add_eq_or_of_lt y.isLt]

/-- A word widened to a response value is at most the largest word of its own width. -/
theorem toNat_setWidth_le {n : Nat} (x : BitVec n) : (x.setWidth 32).toNat ≤ 2 ^ n - 1 := by
  rw [BitVec.toNat_setWidth]
  exact (Nat.mod_le _ _).trans (Nat.le_pred_of_lt x.isLt)

section Assemblies
variable (a b x : Byte)

/-- On naturals the 20-bit assembly is the spec's formula (R182, R184, R11): 32 bits lose nothing. -/
theorem adcThreeBytes_toNat :
    (adcThreeBytes a b x).toNat = (a.toNat <<< 12) + (b.toNat <<< 4) + (x.toNat >>> 4) := by
  simp only [adcThreeBytes, BitVec.toNat_add, BitVec.toNat_shiftLeft, BitVec.toNat_ushiftRight,
    BitVec.toNat_setWidth, Nat.shiftLeft_eq, Nat.shiftRight_eq_div_pow]
  omega

theorem adcThreeBytes_eq_append :
    adcThreeBytes a b x = (a ++ b ++ x.extractLsb' 4 4 : BitVec 20).setWidth 32 := by
  apply BitVec.eq_of_toNat_eq
  rw [adcThreeBytes_toNat, BitVec.toNat_setWidth_of_le (by decide), toNat_append_eq_add,
    toNat_append_eq_add, BitVec.extractLsb'_toNat]
  simp only [Nat.shiftLeft_eq, Nat.shiftRight_eq_div_pow]
  omega

/-- On naturals the 16-bit assembly is the spec's formula (R185, R11). -/
theorem adcTwoBytes_toNat : (adcTwoBytes a b).toNat = (a.toNat <<< 8) + b.toNat := by
  simp only [adcTwoBytes, BitVec.toNat_add, BitVec.toNat_shiftLeft, BitVec.toNat_setWidth,
    Nat.shiftLeft_eq]
  omega

theorem adcTwoBytes_eq_append : adcTwoBytes a b = (a ++ b : BitVec 16).setWidth 32 := by
  apply BitVec.eq_of_toNat_eq
  rw [adcTwoBytes_toNat, BitVec.toNat_setWidth_of_le (by decide), toNat_append_eq_add]

/-- Masking with 0xF leaves the low nibble (R123). -/
theorem nibbleLow_eq_append : nibbleLow a x = a ++ x.extractLsb' 0 4 := by
  have hlow : x.setWidth 12 &&& 0x00F = (x.extractLsb' 0 4).setWidth 12 := by
    apply BitVec.eq_of_toNat_eq
    rw [BitVec.toNat_and, show (0x00F : BitVec 12).toNat = 2 ^ 4 - 1 from rfl,
      Nat.and_two_pow_sub_one_eq_mod]
    simp only [BitVec.toNat_setWidth, BitVec.extractLsb'_toNat, Nat.shiftRight_zero]
    omega
  rw [nibbleLow, hlow, ← BitVec.setWidth_append_eq_shiftLeft_setWidth_or, BitVec.setWidth_eq]

/-- Shifting right by 4 leaves the high nibble (R123). -/
theorem nibbleHigh_eq_append : nibbleHigh a x = a ++ x.extractLsb' 4 4 := by
  have hhigh : x.setWidth 12 >>> 4 = (x.extractLsb' 4 4).setWidth 12 := by
    apply BitVec.eq_of_toNat_eq
    simp only [BitVec.toNat_ushiftRight, BitVec.toNat_setWidth, BitVec.extractLsb'_toNat,
      Nat.shiftRight_eq_div_pow]
    omega
  rw [nibbleHigh, hhigh, ← BitVec.setWidth_append_eq_shiftLeft_setWidth_or, BitVec.setWidth_eq]

end Assemblies

/-- Settles O57: each assembly is an append, and an append of known width is bounded by it. -/
theorem assembliesAreConcatenations : Obligations.AssembliesAreConcatenations := by
  intro a b x
  refine ⟨⟨adcThreeBytes_eq_append a b x, ?_⟩, ⟨adcTwoBytes_eq_append a b, ?_⟩,
    nibbleLow_eq_append a x, nibbleHigh_eq_append a x⟩
  · rw [adcThreeBytes_eq_append]
    exact toNat_setWidth_le (a ++ b ++ x.extractLsb' 4 4 : BitVec 20)
  · rw [adcTwoBytes_eq_append]
    exact toNat_setWidth_le (a ++ b : BitVec 16)

/-! ### The measurement commands -/

/-- A command that is answered with the assembly `n` of its reads: completed, cut short by a fault, or
refused outside VALID (R183, R209, R203). -/
theorem assembledRead {i : Instr} {s : State} {n : Nat} (hk : kindOf i = .other)
    (hw : i.wellFormed = true) (hc : ∀ j, i ≠ .readCal j) (hn : (resultOf s i).toNat = n) :
    (s.Ready → s.Returning (frames s i).length → ∃ v : Value, v.toNat = n ∧ exec i s =
      .next (s.after (frames s i).length (okEventsFrom s 0 (frames s i)) .ok v)) ∧
    (s.Ready → FaultsStop i s (frames s i)) ∧ RefusedOutsideValid i s :=
  ⟨fun hr h => ⟨resultOf s i, hn, exec_completed hr hk hw hc h⟩,
    fun hr => faultsStop_frames hr hk hw, refusedOutsideValid_of_other s hk⟩

/-- Settles O41: three register reads in the order of `frames`, assembled to 20 bits. -/
theorem readAdcTAssemblesTwentyBits : Obligations.ReadAdcTAssemblesTwentyBits :=
  ⟨by decide, fun _ => assembledRead (i := .readAdcT) rfl rfl nofun (adcThreeBytes_toNat _ _ _)⟩

/-- Settles O42: the same from the pressure registers. -/
theorem readAdcPAssemblesTwentyBits : Obligations.ReadAdcPAssemblesTwentyBits :=
  ⟨by decide, fun _ => assembledRead (i := .readAdcP) rfl rfl nofun (adcThreeBytes_toNat _ _ _)⟩

/-- Settles O43: two register reads, assembled to 16 bits. -/
theorem readAdcHAssemblesSixteenBits : Obligations.ReadAdcHAssemblesSixteenBits :=
  ⟨by decide, fun _ => assembledRead (i := .readAdcH) rfl rfl nofun (adcTwoBytes_toNat _ _)⟩

/-! ### READ_CAL -/

/-- Raw bits that are a word widened stay within that word's width (R34, R192). -/
theorem raw_bounded {n : Nat} {c : CalValue} {b : BitVec n} (h : c.raw = b.setWidth 32) :
    c.raw = b.setWidth 32 ∧ c.raw.toNat ≤ 2 ^ n - 1 := ⟨h, h ▸ toNat_setWidth_le b⟩

/-- However READ_CAL is answered, it has no frames and so records nothing (R194). -/
theorem Ends.trace_of_readCal {j : Byte} {s t : State} (h : Ends (.readCal j) s t) :
    t.trace = s.trace := by
  cases h with
  | refused h => exact List.append_nil _
  | illegalOperand hv hk hw => exact List.append_nil _
  | constant hv hj hs => exact List.append_nil _
  | completed hr hk hw hc h => exact absurd rfl (hc j)
  | faulted hr hk hw hlt h hf => cases hlt

/-- Settles O44: a constant of the store by its width, an index past the last refused as an operand,
and the trace by the endings of READ_CAL. -/
theorem readCalAnswersRawBits : Obligations.ReadCalAnswersRawBits := by
  intro s i
  refine ⟨rfl, fun store hi hv hs => ⟨store[i.toNat].raw, ?_, ?_, ?_, exec_readCal hv hi hs⟩,
    fun hv hi => exec_illegalOperand hv (decide_eq_false (Nat.not_le_of_lt hi)),
    fun t h => (ends_of_next h).trace_of_readCal, refusedOutsideValid_of_other s rfl⟩
  · exact fun b hb => raw_bounded (b := b) (congrArg CalValue.raw hb)
  · exact fun b hb => raw_bounded (b := b) (congrArg CalValue.raw hb)
  · exact fun b hb => raw_bounded (b := b) (congrArg CalValue.raw hb)

end Sys2Proof.Machine

/-! SUPPORT. What each status of a response says of the command it answers (`Status.Reason`), the
checks in their order, and the steps that cannot stop. -/

namespace Sys2Proof.Machine

/-! ### The status codes -/

/-- The statuses in the order of their codes (R197). -/
def statusTable : List Status :=
  [.ok, .argument, .range, .identity, .transport, .disposed, .illegalCommand, .illegalOperand, .state]

/-- A status stands in the table at its own code. -/
theorem statusTable_code (st : Status) : statusTable[st.code.toNat]? = some st := by
  cases st <;> rfl

/-- Settles O18: the code is the status's place in the table, so it tells the status and is none past
the table's end. -/
theorem statusCodes : Obligations.StatusCodes := by
  refine ⟨by decide, fun st st' h => ?_, fun st => ?_⟩
  · have hplace := statusTable_code st
    rw [h, statusTable_code st'] at hplace
    exact (Option.some.inj hplace).symm
  · obtain ⟨hlt, -⟩ := List.getElem?_eq_some_iff.mp (statusTable_code st)
    exact Nat.le_of_lt_succ hlt

/-! ### The one response and the frame -/

/-- Settles O45: every ending delivers its response and no other. -/
theorem oneResponsePerCommand : Obligations.OneResponsePerCommand := by
  intro i s t h
  obtain ⟨b, n, evs, st, v, rfl⟩ := (ends_of_next h).eq_after
  exact ⟨⟨st, v⟩, rfl⟩

/-- Settles O46: no ending touches the parameters or the host's inputs, and the block is touched by
INIT and DISPOSE alone. -/
theorem commandsKeepBlockState : Obligations.CommandsKeepBlockState := by
  intro i s t hi hd h
  have he := ends_of_next h
  have hb : t.block = s.block := he.block_of_other (kindOf_eq_other hi hd)
  obtain ⟨b, n, evs, st, v, rfl⟩ := he.eq_after
  exact ⟨hb, rfl, rfl, rfl⟩

/-! ### The cells of the admission table -/

/-- INIT is admitted in UNINIT alone (R203). -/
theorem admission_init_eq_none {l : Lifecycle} : admission l .init = none ↔ l = .uninit := by
  cases l <;> simp [admission]

/-- The commands of the third column are admitted in VALID alone (R203). -/
theorem admission_other_eq_none {l : Lifecycle} : admission l .other = none ↔ l = .valid := by
  cases l <;> simp [admission]

/-- The commands the admission table admits, by lifecycle state (R203). -/
theorem admission_eq_none_of {i : Instr} {l : Lifecycle}
    (h : i = .dispose ∨ (l = .uninit ∧ i = .init) ∨ (l = .valid ∧ i ≠ .init)) :
    admission l (kindOf i) = none := by
  rcases h with rfl | ⟨rfl, rfl⟩ | ⟨rfl, hi⟩
  · exact admission_dispose l
  · rfl
  · cases hk : kindOf i with
    | init => exact absurd (kindOf_eq_init.mp hk) hi
    | dispose => rfl
    | other => rfl

/-! ### Why a command is answered with a status -/

/-- What the status `st` says of a command `i` that was run in `s` and left `t` (R198, R206 to R208,
R210); OK and TRANSPORT say nothing of the checks. -/
def Status.Reason (i : Instr) (s t : State) : Status → Prop
  | .ok => True
  | .argument => i = .init ∧ s.block.lifecycle = .uninit ∧ t.block.lifecycle = .failed ∧
      s.hostTp = none
  | .range => i = .init ∧ s.block.lifecycle = .uninit ∧ t.block.lifecycle = .failed ∧
      ∃ h, s.hostTp = some h ∧ legalAddress h.address = false
  | .identity => i = .init ∧ s.block.lifecycle = .uninit ∧ t.block.lifecycle = .failed ∧
      ∃ h, s.hostTp = some h ∧ legalAddress h.address = true ∧ s.byte 1 ≠ Config.chipIdValue
  | .transport => True
  | .disposed => admission s.block.lifecycle (kindOf i) ≠ none
  | .illegalCommand => False
  | .illegalOperand => i.wellFormed = false
  | .state => admission s.block.lifecycle (kindOf i) ≠ none

/-- However a command ends, its response has a status with its reason. -/
theorem Ends.reason {i : Instr} {s t : State} (h : Ends i s t) :
    ∃ r : Response, t.responses = s.responses ++ [r] ∧ r.status.Reason i s t := by
  cases h with
  | refused h =>
    refine ⟨_, rfl, ?_⟩
    have hne : admission s.block.lifecycle (kindOf i) ≠ none := by simp [h]
    rcases admission_status h with rfl | rfl
    · exact hne
    · exact hne
  | illegalOperand hv hk hw => exact ⟨_, rfl, hw⟩
  | constant | completed | faulted | disposed | initFaulted | initCompleted =>
    exact ⟨_, rfl, trivial⟩
  | initAbsent hu ht => exact ⟨_, rfl, rfl, hu, rfl, ht⟩
  | initRange hu ht hp ha => exact ⟨_, rfl, rfl, hu, rfl, _, ht, ha⟩
  | initIdentity hu ht hp ha hr hid => exact ⟨_, rfl, rfl, hu, rfl, _, ht, ha, hid⟩

/-- The reason of the one response a command has delivered. -/
theorem Ends.reason_of_response {i : Instr} {s t : State} {r : Response} (h : Ends i s t)
    (hr : t.responses = s.responses ++ [r]) : r.status.Reason i s t := by
  obtain ⟨r', hr', hreason⟩ := h.reason
  obtain rfl : r = r' := by simpa using hr.symm.trans hr'
  exact hreason

/-- Settles O22: each of the three statuses by its reason. -/
theorem constructionErrorsComeFromInit : Obligations.ConstructionErrorsComeFromInit := by
  intro i s t r h hr
  have hreason : r.status.Reason i s t := (ends_of_next h).reason_of_response hr
  refine ⟨?_, ?_, ?_, ?_⟩
  · rintro (he | he | he) <;> rw [he] at hreason <;> obtain ⟨hi, hu, hf, -⟩ := hreason <;>
      exact ⟨hi, hu, hf⟩
  · intro he
    rw [he] at hreason
    obtain ⟨-, -, -, ht⟩ := hreason
    exact ht
  · intro he
    rw [he] at hreason
    obtain ⟨-, -, -, d, ht, ha⟩ := hreason
    exact ⟨d, ht, by simp [← legalAddress_iff, ha]⟩
  · intro he
    rw [he] at hreason
    obtain ⟨-, -, -, d, ht, ha, hid⟩ := hreason
    exact ⟨d, ht, (legalAddress_iff _).mp ha, hid⟩

/-- Settles O15: the refusing cells are read off the table, and STATE and DISPOSED have no other
reason. -/
theorem admissionTable : Obligations.AdmissionTable := by
  intro i s
  refine ⟨fun hl hi hd => exec_refused ?_, fun hl hi => exec_refused ?_, fun hl hd => ?_,
    fun hl hd => ?_, fun t h hadm => ?_⟩
  · rw [hl, kindOf_eq_other hi hd]
    rfl
  · rw [hl, hi]
    rfl
  · obtain ⟨body, hb⟩ := exec_eq_admit i
    rw [hb, admit_failed hl (mt kindOf_eq_dispose.mp hd)]
  · obtain ⟨body, hb⟩ := exec_eq_admit i
    rw [hb, admit_disposed hl (mt kindOf_eq_dispose.mp hd)]
  · have hnone : admission s.block.lifecycle (kindOf i) = none := admission_eq_none_of hadm
    obtain ⟨r, hr, hreason⟩ := (ends_of_next h).reason
    refine ⟨r, hr, ?_, ?_⟩ <;> intro he <;> rw [he] at hreason <;> exact hreason hnone

/-- Only SET_MODE and READ_CAL have operands outside their legal set (R206). -/
theorem illFormed_cases {i : Instr} (h : i.wellFormed = false) :
    (∃ m : Byte, 1 < m.toNat ∧ i = .setMode m) ∨ ∃ j : Byte, 19 < j.toNat ∧ i = .readCal j := by
  cases i with
  | setMode m => exact .inl ⟨m, Nat.lt_of_not_le (of_decide_eq_false h), rfl⟩
  | readCal j => exact .inr ⟨j, Nat.lt_of_not_le (of_decide_eq_false h), rfl⟩
  | init | dispose | read8 | read16 | write8 | setOsrsT | setOsrsP | setOsrsH | softReset | getMode
  | hasNewData | readAdcT | readAdcP | readAdcH => cases h

/-- Settles O17: the operand check refuses both commands, and ILLEGAL_OPERAND has no other reason. -/
theorem illegalOperandExactly : Obligations.IllegalOperandExactly := by
  intro s hv
  refine ⟨fun m hm => exec_illegalOperand hv (decide_eq_false (Nat.not_le_of_lt hm)),
    fun j hj => exec_illegalOperand hv (decide_eq_false (Nat.not_le_of_lt hj)),
    fun i t h hmode hcal => ?_⟩
  obtain ⟨r, hr, hreason⟩ := (ends_of_next h).reason
  refine ⟨r, hr, fun he => ?_⟩
  rw [he] at hreason
  rcases illFormed_cases hreason with ⟨m, hm, hi⟩ | ⟨j, hj, hi⟩
  · exact hmode m hm hi
  · exact hcal j hj hi

/-! ### The order of the checks -/

/-- A word whose command is refused before any primitive: the step adds its error response and no
event. -/
theorem step_refused {s : State} {w : CommandWord} {tp : Option TransportHandle}
    {rest : List HostInput} {i : Instr} {e : Status} {v : Value}
    (hin : s.inputs = .command w tp :: rest) (hd : decode w = .command i)
    (h : exec i (s.presented rest tp) = .next ((s.presented rest tp).after 0 [] e v)) :
    ∃ t r, step s = .next t ∧ t.trace = s.trace ∧ t.responses = s.responses ++ [r] ∧
      r.status = e :=
  ⟨_, ⟨e, v⟩, (step_command hin hd).trans h, List.append_nil _, rfl, rfl⟩

/-- Settles O16: the decoder first, then the cells of the admission table, then the operand check of
a VALID block. -/
theorem checkOrder : Obligations.CheckOrder := by
  intro s w tp rest i hin
  refine ⟨fun hd => ⟨_, _, step_illegalCommand hin hd, rfl, rfl⟩, fun hd hi hdis hv => ?_,
    fun hd hw hv => step_refused hin hd (exec_illegalOperand hv hw)⟩
  obtain ⟨uninit, -, failed, disposed, -⟩ := admissionTable i (s.presented rest tp)
  cases hl : s.block.lifecycle with
  | uninit => exact step_refused hin hd (uninit hl hi hdis)
  | valid => exact absurd hl hv
  | failed => exact step_refused hin hd (failed hl hdis)
  | disposed => exact step_refused hin hd (disposed hl hdis)

/-! ### Steps that cannot stop -/

/-- A VALID block that is consistent holds a handle and a store (R29, R32). -/
theorem held_of_consistent {b : BlockState} (h : b.consistent = true) (hv : b.lifecycle = .valid) :
    b.tp.isSome = true ∧ ∃ store, b.cal = some store := by
  obtain ⟨l, tp, a, c⟩ := b
  cases hv
  unfold BlockState.consistent at h
  split at h <;> simp_all

section Answering
variable {s : State} (hn : ∀ k, s.answer k ≠ .never)
include hn

/-- Without silence the next primitives all complete, or a first one faults. -/
theorem returning_or_faults (n : Nat) :
    s.Returning n ∨ ∃ k < n, s.Returning k ∧ s.answer k = .faults := by
  rcases returning_or_first s n with h | ⟨k, hk, h, hf | hsilent⟩
  · exact .inl h
  · exact .inr ⟨k, hk, h, hf⟩
  · exact absurd hsilent (hn k)

/-- INIT from UNINIT is answered, whatever is presented, as long as that answers. -/
theorem ends_init_answering (hu : s.block.lifecycle = .uninit)
    (hp : ∀ d, s.hostTp = some d → d.Prompt) : ∃ t, Ends .init s t := by
  cases ht : s.hostTp with
  | none => exact ⟨_, .initAbsent hu ht⟩
  | some d =>
    have hd : d.Prompt := hp d ht
    cases ha : legalAddress d.address with
    | false => exact ⟨_, .initRange hu ht hd ha⟩
    | true =>
      by_cases hid : s.byte 1 = Config.chipIdValue
      · rcases returning_or_faults hn (framesInit s.params).length with hr | ⟨k, hk, hr, hf⟩
        · exact ⟨_, .initCompleted hu ht hd.1 ha hr hid⟩
        · exact ⟨_, .initFaulted hu ht hd ha hk hr hf fun _ => hid⟩
      · rcases returning_or_faults hn 2 with hr | ⟨k, hk, hr, hf⟩
        · exact ⟨_, .initIdentity hu ht hd ha hr hid⟩
        · have hlt : k < (framesInit s.params).length := by rw [framesInit_length]; omega
          exact ⟨_, .initFaulted hu ht hd ha hlt hr hf fun hle => absurd hk (Nat.not_lt_of_le hle)⟩

/-- Every command of the third column is answered by a VALID block that is consistent. -/
theorem ends_valid_answering {i : Instr} (hk : kindOf i = .other)
    (hb : s.block.consistent = true) (hv : s.block.lifecycle = .valid) : ∃ t, Ends i s t := by
  obtain ⟨hold, store, hs⟩ := held_of_consistent hb hv
  cases hw : i.wellFormed with
  | false => exact ⟨_, .illegalOperand hv hk hw⟩
  | true =>
    by_cases hc : ∃ j, i = .readCal j
    · obtain ⟨j, rfl⟩ := hc
      exact ⟨_, .constant hv (Nat.lt_succ_of_le (of_decide_eq_true hw)) hs⟩
    · rcases returning_or_faults hn (frames s i).length with hr | ⟨k, hlt, hr, hf⟩
      · exact ⟨_, .completed ⟨hv, hold⟩ hk hw (fun j hj => hc ⟨j, hj⟩) hr⟩
      · exact ⟨_, .faulted ⟨hv, hold⟩ hk hw hlt hr hf⟩

/-- Every command is answered by a consistent block whose primitives all return or fault. -/
theorem ends_answering (i : Instr) (hb : s.block.consistent = true) (hr : s.ReleaseReturns)
    (hp : ∀ d, s.hostTp = some d → d.Prompt) : ∃ t, Ends i s t := by
  cases ha : admission s.block.lifecycle (kindOf i) with
  | some r => exact ⟨_, .refused ha⟩
  | none =>
    cases hk : kindOf i with
    | init =>
      rw [hk] at ha
      obtain rfl := kindOf_eq_init.mp hk
      exact ends_init_answering hn (admission_init_eq_none.mp ha) hp
    | dispose =>
      obtain rfl := kindOf_eq_dispose.mp hk
      exact ⟨_, .disposed hr⟩
    | other =>
      rw [hk] at ha
      exact ends_valid_answering hn hk hb (admission_other_eq_none.mp ha)

end Answering

/-- Settles O13, input by input: none, a word that decodes, one that does not, and a reset. -/
theorem onlySilenceOrHeldResetStops : Obligations.OnlySilenceOrHeldResetStops := by
  rintro s ⟨hb, -⟩ hn hrel hprompt hreset
  cases hin : s.inputs with
  | nil => exact ⟨s, step_idle hin⟩
  | cons input rest =>
    cases input with
    | command w tp =>
      cases hd : decode w with
      | command i =>
        have hp : ∀ d, (s.presented rest tp).hostTp = some d → d.Prompt := by
          rintro d rfl
          exact hprompt w d rest hin
        obtain ⟨t, he⟩ := ends_answering (s := s.presented rest tp) hn i hb hrel hp
        exact ⟨t, (step_command hin hd).trans he.exec_eq⟩
      | illegalCommand => exact ⟨_, step_illegalCommand hin hd⟩
    | blockReset =>
      have htp : (s.presented rest s.hostTp).block.tp = none := hreset rest hin
      rw [step_blockReset hin, resetBlock, htp]
      exact ⟨_, rfl⟩

end Sys2Proof.Machine

/-! SUPPORT. The two steps that run no command: waiting, and the reset of the block. -/

namespace Sys2Proof.Machine

/-- Settles O9: the step of an empty queue. -/
theorem blockWaitsWithoutInput : Obligations.BlockWaitsWithoutInput := fun _ => step_idle

/-- A reset of a block that holds no handle gives the reset values (R223). -/
theorem resetBlock_noHandle {s : State} (htp : s.block.tp = none) :
    resetBlock s = .next (s.withBlock .reset) := by
  rw [resetBlock, htp]

/-- A reset of a block that holds a handle has no meaning (R224). -/
theorem resetBlock_held {s : State} (hold : s.block.tp.isSome = true) :
    resetBlock s = .refused .resetWhileTransportHeld := by
  obtain ⟨d, hd⟩ := Option.isSome_iff_exists.mp hold
  rw [resetBlock, hd]

/-- Settles O8: the step is the reset of the block with the input taken, which turns on the handle. -/
theorem blockResetStep : Obligations.BlockResetStep := by
  intro s rest hin
  rw [step_blockReset hin]
  exact ⟨resetBlock_noHandle (s := s.presented rest s.hostTp),
    resetBlock_held (s := s.presented rest s.hostTp)⟩

end Sys2Proof.Machine

/-! SUPPORT. How many events a command records: one for each of its frames, and INIT two more. -/

namespace Sys2Proof.Machine

/-- Each completed call records one event. -/
@[simp] theorem okEventsFrom_length (s : State) (k : Nat) (cs : List BusCall) :
    (okEventsFrom s k cs).length = cs.length := by
  induction cs generalizing k with
  | nil => rfl
  | cons c cs ih => simp [okEventsFrom, ih]

/-- So do the calls before call `k`. -/
theorem okEventsFrom_take_length (s : State) (j : Nat) {cs : List BusCall} {k : Nat}
    (hk : k < cs.length) : (okEventsFrom s j (cs.take k)).length = k := by
  rw [okEventsFrom_length, List.length_take_of_le hk.le]

/-- A command of a VALID block may make as many calls as its frames have (R239). -/
theorem frames_length {i : Instr} (s : State) (hk : kindOf i = .other) :
    (frames s i).length = callBound s.params i := by
  cases i with
  | init | dispose => cases hk
  | read8 | read16 | write8 | setMode | setOsrsT | setOsrsP | setOsrsH | softReset | getMode
  | hasNewData | readAdcT | readAdcP | readAdcH | readCal => rfl

/-- INIT may make its frames, and the query and the release around them (R239). -/
theorem callBound_init (p : Config.Params) :
    callBound p .init = (framesInit p).length + 2 := by
  rw [framesInit_length, callBound]
  omega

/-- However a command ends, it has recorded no more events than its bound. -/
theorem Ends.trace_bounded {i : Instr} {s t : State} (h : Ends i s t) :
    ∃ evs, t.trace = s.trace ++ evs ∧ evs.length ≤ callBound s.params i := by
  cases h with
  | refused | illegalOperand | constant | initAbsent => exact ⟨[], rfl, Nat.zero_le _⟩
  | completed _ hk => exact ⟨_, rfl, by simp [frames_length s hk]⟩
  | faulted _ hk _ hlt =>
    refine ⟨_, rfl, ?_⟩
    rw [← frames_length s hk, List.length_append, okEventsFrom_take_length s 0 hlt]
    exact hlt
  | disposed => exact ⟨_, rfl, by split <;> simp [callBound]⟩
  | initRange => exact ⟨_, rfl, by simp [callBound_init]⟩
  | initIdentity => exact ⟨_, rfl, by simp [callBound]⟩
  | initFaulted _ _ _ _ hlt =>
    refine ⟨_, rfl, ?_⟩
    rw [callBound_init, List.cons_append, List.length_cons, List.length_append,
      okEventsFrom_take_length s 0 hlt]
    exact Nat.add_le_add_right hlt 2
  | initCompleted => exact ⟨_, rfl, by simp [callBound_init]⟩

/-- Settles O49, by the endings of a command; the default map has the 46 frames of O27's table. -/
theorem boundedWorkPerCommand : Obligations.BoundedWorkPerCommand := by
  refine ⟨fun _ _ _ h => (ends_of_next h).trace_bounded, ?_⟩
  rw [callBound_init, defaultCalibrationFrames.2]

end Sys2Proof.Machine

/-! SUPPORT. Where a primitive that never returns leaves the block without a step: in a frame, in
the address query, and in the release of DISPOSE and of an INIT that fails (R240). -/

namespace Sys2Proof.Machine

/-- The primitives before one that does not complete are no more than its number. -/
theorem le_of_returning {s : State} {n k : Nat} (h : s.Returning n)
    (hk : s.answer k = .faults ∨ s.answer k = .never) : n ≤ k := by
  refine Nat.le_of_not_lt fun hlt => ?_
  obtain ⟨b0, b1, hb⟩ := h k hlt
  simp [hb] at hk

/-- A command of a VALID block is stuck in the first of its frames that never returns. -/
theorem exec_silentFrame {i : Instr} {s : State} {k : Nat} (hr : s.Ready) (hk : kindOf i = .other)
    (hw : i.wellFormed = true) (hlt : k < (frames s i).length) (h : s.Returning k)
    (hn : s.answer k = .never) : exec i s = .fault .primitiveNeverReturns := by
  have hc : ∀ j, i ≠ .readCal j := by
    rintro j rfl
    cases hlt
  rw [exec_eq_calls hr.1 hk hw hc, runCalls_never hr.2 hlt h hn, map_stopped, deliver_stopped]

section Init
variable {s : State} {h : TransportHandle} (hu : s.block.lifecycle = .uninit)
  (ht : s.hostTp = some h)
include hu ht

/-- A silent address query leaves INIT stuck before all else, so the rest may take it to return. -/
theorem exec_init_stuck_of_query
    (hx : h.addressReturns = true → exec .init s = .fault .primitiveNeverReturns) :
    exec .init s = .fault .primitiveNeverReturns := by
  cases hq : h.addressReturns with
  | false => exact exec_init_silentAddress hu ht hq
  | true => exact hx hq

/-- INIT at a legal address is its frames of R102, unless the chip-ID read completes and gives
another chip. -/
theorem exec_init_frames (hq : h.addressReturns = true) (ha : legalAddress h.address = true)
    (hid : s.Returning 2 → s.byte 1 = Config.chipIdValue) :
    exec .init s = (initFail ((runCalls (framesInit s.params) (initStart s h)).andThen fun _ u =>
      .done 0 (u.withBlock ⟨.valid, some h, some h.address, some (storeFrom s)⟩))).deliver := by
  by_cases hc : s.byte 1 = Config.chipIdValue
  · exact exec_init_identified hu ht hq ha hc
  · rw [exec_init_unidentified hu ht hq ha hc, framesInit, runCalls_append]
    rcases runCalls_cases (framesRead8 s.params.regChipId) (initStart s h) (initStart_held s h) with
      ⟨hr, -⟩ | ⟨_, _, -, -, hx⟩ | ⟨_, _, -, -, hx⟩
    · exact absurd (hid hr) hc
    · rw [hx]
      rfl
    · rw [hx]
      rfl

/-- INIT is stuck in the first of its frames that never returns, and in the release after the first
that faults if that release never returns. -/
theorem exec_init_silentFrame {k : Nat} (ha : legalAddress h.address = true)
    (hlt : k < (framesInit s.params).length) (hr : s.Returning k)
    (hid : 2 ≤ k → s.byte 1 = Config.chipIdValue)
    (hk : s.answer k = .never ∨ s.answer k = .faults ∧ h.releaseReturns = false) :
    exec .init s = .fault .primitiveNeverReturns := by
  refine exec_init_stuck_of_query hu ht fun hq => ?_
  have hid' : s.Returning 2 → s.byte 1 = Config.chipIdValue := fun h2 =>
    hid (le_of_returning h2 (hk.symm.imp And.left id))
  rw [exec_init_frames hu ht hq ha hid']
  rcases hk with hn | ⟨hf, hrel⟩
  · rw [runCalls_never (initStart_held s h) hlt hr hn]
    rfl
  · rw [runCalls_faults (initStart_held s h) hlt hr hf, andThen_raised,
      initFail_moved_silent s hrel]

/-- INIT that reads another chip's identity is stuck in a release that never returns. -/
theorem exec_init_identity_silent (ha : legalAddress h.address = true)
    (hrel : h.releaseReturns = false) (hr : s.Returning 2) (hid : s.byte 1 ≠ Config.chipIdValue) :
    exec .init s = .fault .primitiveNeverReturns := by
  refine exec_init_stuck_of_query hu ht fun hq => ?_
  rw [exec_init_unidentified hu ht hq ha hid,
    runCalls_returning (cs := framesRead8 _) (initStart_held s h) hr, andThen_done,
    initFail_moved_silent s hrel]

end Init

/-- Settles O48, primitive by primitive: a frame of a command, the release of DISPOSE, and INIT's
query, frames and release. -/
theorem silentPrimitiveLeavesBlockStuck : Obligations.SilentPrimitiveLeavesBlockStuck := by
  refine ⟨fun i s k hr hi hd hw hlt h hn =>
      exec_silentFrame hr (kindOf_eq_other hi hd) hw hlt h hn,
    fun s h => exec_dispose_silent, fun s h hu ht => ?_⟩
  have legal (hlo : 0x76 ≤ h.address.toNat) (hhi : h.address.toNat ≤ 0x77) :
      legalAddress h.address = true := (legalAddress_iff _).mpr ⟨hlo, hhi⟩
  refine ⟨exec_init_silentAddress hu ht, fun k hlo hhi hlt hr hn hid =>
    exec_init_silentFrame hu ht (legal hlo hhi) hlt hr hid (.inl hn), fun hrel => ⟨fun ha => ?_,
    fun hlo hhi => exec_init_identity_silent hu ht (legal hlo hhi) hrel,
    fun k hlo hhi hlt hr hf hid =>
      exec_init_silentFrame hu ht (legal hlo hhi) hlt hr hid (.inr ⟨hf, hrel⟩)⟩⟩
  rw [← legalAddress_iff] at ha
  exact exec_init_range_silent hu ht (Bool.eq_false_of_not_eq_true ha) hrel

end Sys2Proof.Machine
